-- ==== Sys2Proof/Word.lean ====
section
/-! DEFINITION. Words, levels and pulses: the value types of the PCT block.

Bit 0 is the least significant bit of every value (spec/00_scope.md R8). Levels and flags that are one bit wide are
`Bool` (`true` is 1); the named sets of values of spec/30_encoding.md R88 are inductive types. -/

namespace Sys2Proof

/-- A register of the window and a command word: 32 bits (spec/20_memory.md R61, spec/30_encoding.md R80). -/
abbrev Word := BitVec 32

/-- One byte. -/
abbrev Byte := BitVec 8

/-- A PulseWidth, a counter or a compare value: a W-bit value zero-extended to 16 bits, W at most 16
(spec/00_scope.md R6, spec/30_encoding.md R89). That the upper bits are zero is part of the invariant of Safety.lean. -/
abbrev Half := BitVec 16

/-- The level of a pin: `true` is 1 (high). -/
abbrev Level := Bool

/-- The edge_type of a pulse (spec/00_scope.md R11): Rising is "low then high", Falling is "high then low". -/
inductive EdgeType where
  | rising
  | falling
deriving DecidableEq, Repr, Inhabited

/-- A pulse `{first_half, second_half, edge_type}` (spec/00_scope.md R11, spec/10_state.md R34). -/
structure Pulse where
  first : Half
  second : Half
  type : EdgeType
deriving DecidableEq, Repr, Inhabited

end Sys2Proof
end

