-- ==== Sys2Proof/Syntax.lean ====
section
/-! DEFINITION. The instructions: one constructor per row of spec/opcode_table.json.

The block's "instructions" are the command words that the host writes to CMD, and the events TICK and EDGE
(spec/00_scope.md R2). Host register accesses other than the write of a command have no row; they are stimuli of
Machine/State.lean. -/

namespace Sys2Proof

/-- A command or an event. -/
inductive Instr where
  /-- `NOP` (spec/40_clock.md R115). -/
  | nop
  /-- `SET_CLOCK psc, period` (spec/40_clock.md R110). -/
  | setClock (psc : BitVec 4) (period : BitVec 24)
  /-- `CONFIG_READ` with EN = 1 (spec/41_capture.md R130): the idle level and the noise_cancel flag. -/
  | configRead (idle nc : Bool)
  /-- `CONFIG_READ` with EN = 0, the pseudo-command stop_reading (spec/41_capture.md R131). IDLE and NC are encoded and
  ignored; they are kept so that no bit of the word is lost. -/
  | configReadStop (idle nc : Bool)
  /-- `TX_PUSH type` (spec/42_transmit.md R161). -/
  | txPush (type : EdgeType)
  /-- `TX_SEND` (spec/42_transmit.md R163). -/
  | txSend
  /-- `TX_CLEAR_STAGE` (spec/42_transmit.md R162). -/
  | txClearStage
  /-- The event `TICK`: one period of the prescaled clock (spec/40_clock.md R113). It has no encoding. -/
  | tick
  /-- The event `EDGE(v)`: the filtered input pin changes to level `v` (spec/41_capture.md R133). It has no encoding. -/
  | edge (v : Level)
  /-- The row `(reserved)`: any word matched by no other row (spec/30_encoding.md R84), with the word itself. -/
  | reserved (w : Word)
deriving DecidableEq, Repr

end Sys2Proof
end

