-- ==== Sys2Proof/WellFormed.lean ====
section
/-! DEFINITION. Which terms of `Instr` are instructions of the block.

Every field of every constructor but one has exactly the values its encoding has, so the only check is that a
`reserved` term carries an illegal word (spec/30_encoding.md R84). -/

namespace Sys2Proof

/-- The reserved bits of ARG that must be 0, for each OP of the table of spec/30_encoding.md R80, as a mask of the whole
word. For OP 0x6 to 0xF every ARG bit is reserved. -/
def reservedArgMask (op : Nat) : Word :=
  match op with
  | 0 => 0x0FFFFFFF#32
  | 1 => 0x00000000#32
  | 2 => 0x0FFFFFF8#32
  | 3 => 0x0FFFFFFE#32
  | 4 => 0x0FFFFFFF#32
  | 5 => 0x0FFFFFFF#32
  | _ => 0x0FFFFFFF#32

/-- A word is illegal "when either OP is 0x6 to 0xF or any reserved ARG bit of its OP is 1" (spec/30_encoding.md R84). -/
def illegalWord (w : Word) : Bool :=
  let op := (w >>> 28).toNat
  decide (6 ≤ op) || (w &&& reservedArgMask op) != 0#32

/-- The well-formed instructions. -/
def Instr.wellFormed (i : Instr) : Bool :=
  match i with
  | .nop => true
  | .setClock _ _ => true
  | .configRead _ _ => true
  | .configReadStop _ _ => true
  | .txPush _ => true
  | .txSend => true
  | .txClearStage => true
  | .tick => true
  | .edge _ => true
  | .reserved w => illegalWord w

/-- The instructions that the host issues by writing a word to CMD; the other two are events
(spec/00_scope.md R2). -/
def Instr.isCommand (i : Instr) : Bool :=
  match i with
  | .nop => true
  | .setClock _ _ => true
  | .configRead _ _ => true
  | .configReadStop _ _ => true
  | .txPush _ => true
  | .txSend => true
  | .txClearStage => true
  | .tick => false
  | .edge _ => false
  | .reserved _ => true

end Sys2Proof
end

