-- ==== Sys2Proof/Decode.lean ====
section
/-! DEFINITION. Decoding and encoding of command words (spec/30_encoding.md R80 to R85).

"A decoder reads OP first, then checks the reserved bits of ARG for that OP." Decoding a word is total: a word that fails
is the row `(reserved)`, BadCommand. Decoding bytes rejects by name a list that is too short. -/

namespace Sys2Proof

/-- OP = v[31:28] (R80). -/
def opField (w : Word) : BitVec 4 := w.extractLsb' 28 4

/-- ARG = v[27:0] (R80). -/
def argField (w : Word) : BitVec 28 := w.extractLsb' 0 28

/-- EN = v[0] of CONFIG_READ (R80). -/
def enField (w : Word) : Bool := w.getLsbD 0

/-- IDLE = v[1] of CONFIG_READ (R80). -/
def idleField (w : Word) : Bool := w.getLsbD 1

/-- NC = v[2] of CONFIG_READ (R80). -/
def ncField (w : Word) : Bool := w.getLsbD 2

/-- PSC = v[3:0] of SET_CLOCK (R80, R82). -/
def pscField (w : Word) : BitVec 4 := w.extractLsb' 0 4

/-- PERIOD = v[27:4] of SET_CLOCK (R80, R82). -/
def periodField (w : Word) : BitVec 24 := w.extractLsb' 4 24

/-- edge_type: 0 = Rising, 1 = Falling (R88). -/
def EdgeType.ofBit (b : Bool) : EdgeType := if b then .falling else .rising

/-- edge_type: 0 = Rising, 1 = Falling (R88). -/
def EdgeType.toBit (t : EdgeType) : Bool :=
  match t with
  | .rising => false
  | .falling => true

/-- The reserved bits of ARG of CONFIG_READ and TX_PUSH start at this bit (R80: [27:3] and [27:1]). -/
def argFrom (w : Word) (lo : Nat) : Nat := (argField w).toNat / 2 ^ lo

/-- Decode a command word (R80, R84). -/
def decode (w : Word) : Instr :=
  match (opField w).toNat with
  | 0 => if argFrom w 0 = 0 then .nop else .reserved w
  | 1 => .setClock (pscField w) (periodField w)
  | 2 =>
    if argFrom w 3 = 0 then
      if enField w then .configRead (idleField w) (ncField w) else .configReadStop (idleField w) (ncField w)
    else .reserved w
  | 3 => if argFrom w 1 = 0 then .txPush (EdgeType.ofBit (w.getLsbD 0)) else .reserved w
  | 4 => if argFrom w 0 = 0 then .txSend else .reserved w
  | 5 => if argFrom w 0 = 0 then .txClearStage else .reserved w
  | _ => .reserved w

/-- Why a list of bytes is no command word. -/
inductive DecodeError where
  /-- fewer than the four bytes of a command word (R80: fixed length, 32 bits) -/
  | truncated
deriving DecidableEq, Repr

/-- Four bytes, the first at the lowest address, as a word: little-endian (spec/20_memory.md R61). -/
def wordOfBytes (b0 b1 b2 b3 : Byte) : Word := b3 ++ b2 ++ b1 ++ b0

/-- Byte k of a word: bits [8k+7 : 8k] (spec/20_memory.md R61). -/
def byteOfWord (w : Word) (k : Nat) : Byte := w.extractLsb' (8 * k) 8

/-- Decode one command at the head of a list of bytes, and give the rest. -/
def decodeBytes (bs : List Byte) : Except DecodeError (Instr × List Byte) :=
  match bs with
  | b0 :: b1 :: b2 :: b3 :: rest => .ok (decode (wordOfBytes b0 b1 b2 b3), rest)
  | _ => .error .truncated

/-- The word of a command (R81). The events TICK and EDGE have none ("Encoding: none", spec/40_clock.md R113,
spec/41_capture.md R133). -/
def encode (i : Instr) : Option Word :=
  match i with
  | .nop => some 0x00000000#32
  | .setClock psc period => some (0x1#4 ++ period ++ psc)
  | .configRead idle nc => some (0x2#4 ++ 0#25 ++ BitVec.ofBool nc ++ BitVec.ofBool idle ++ 1#1)
  | .configReadStop idle nc => some (0x2#4 ++ 0#25 ++ BitVec.ofBool nc ++ BitVec.ofBool idle ++ 0#1)
  | .txPush type => some (0x3#4 ++ 0#27 ++ BitVec.ofBool type.toBit)
  | .txSend => some 0x40000000#32
  | .txClearStage => some 0x50000000#32
  | .tick => none
  | .edge _ => none
  | .reserved w => some w

/-- The bytes of a command, the first at the lowest address (spec/20_memory.md R61). -/
def encodeBytes (i : Instr) : Option (List Byte) :=
  (encode i).map fun w => [byteOfWord w 0, byteOfWord w 1, byteOfWord w 2, byteOfWord w 3]

/-- One row of spec/opcode_table.json that has a match and a mask (R81). -/
structure Row where
  mnemonic : String
  matchBits : Word
  mask : Word
deriving DecidableEq, Repr

/-- The word has the row's pattern. -/
def Row.hits (r : Row) (w : Word) : Bool := (w &&& r.mask) == r.matchBits

/-- The rows of spec/opcode_table.json that have a match and a mask (R81; CONFIG_READ split by EN). -/
def opcodeRows : List Row :=
  [ ⟨"NOP", 0x00000000#32, 0xFFFFFFFF#32⟩,
    ⟨"SET_CLOCK", 0x10000000#32, 0xF0000000#32⟩,
    ⟨"CONFIG_READ", 0x20000001#32, 0xFFFFFFF9#32⟩,
    ⟨"CONFIG_READ__stop__pseudo_stop_reading", 0x20000000#32, 0xFFFFFFF9#32⟩,
    ⟨"TX_PUSH", 0x30000000#32, 0xFFFFFFFE#32⟩,
    ⟨"TX_SEND", 0x40000000#32, 0xFFFFFFFF#32⟩,
    ⟨"TX_CLEAR_STAGE", 0x50000000#32, 0xFFFFFFFF#32⟩ ]

/-- The mnemonic of an instruction's row in spec/opcode_table.json. -/
def Instr.mnemonic (i : Instr) : String :=
  match i with
  | .nop => "NOP"
  | .setClock _ _ => "SET_CLOCK"
  | .configRead _ _ => "CONFIG_READ"
  | .configReadStop _ _ => "CONFIG_READ__stop__pseudo_stop_reading"
  | .txPush _ => "TX_PUSH"
  | .txSend => "TX_SEND"
  | .txClearStage => "TX_CLEAR_STAGE"
  | .tick => "TICK"
  | .edge _ => "EDGE"
  | .reserved _ => "(reserved)"

/-- The host's question about one row of the opcode table: the instruction that the decoder reads from a word whose low
`nbits` bits are `w` and whose other bits are 0, laid out as the bus stores it. -/
def decodeTableWord (nbits w : Nat) : Option Instr :=
  let v : Word := BitVec.ofNat 32 (w % 2 ^ nbits)
  match decodeBytes [byteOfWord v 0, byteOfWord v 1, byteOfWord v 2, byteOfWord v 3] with
  | .ok (i, _) => some i
  | .error _ => none

end Sys2Proof
end

