-- ==== Sys2Proof/Config.lean ====
section
/-! DEFINITION. The implementation parameters of spec/00_scope.md R6 and the open values of the block.

The source fixes none of the parameters; a model takes them as arguments (spec/92_eei_decisions.md D2). Those that a rule
reads are the fields of `Params`, which State carries unchanged, so that a statement over every state is a statement over
every choice of them. Those that no rule reads, and the one open value, are opaque constants: nothing in Lean can
evaluate them. -/

namespace Sys2Proof

/-- The parameters that the block's rules read (spec/00_scope.md R6; PIN0: spec/92_eei_decisions.md D8). -/
structure Params where
  /-- `W`: width in bits of the counters, the compare value and every pulse half, 8 to 16. -/
  w : Nat
  /-- `Q_CAP`: capacity in pulses of the Output Queue, 1 to 32767. -/
  qCap : Nat
  /-- `S_CAP`: capacity in pulses of the stage buffer, 1 to 65535. -/
  sCap : Nat
  /-- `BASE`: byte address of the register window, a multiple of 128. -/
  base : Nat
  /-- `PIN0`: the level of the input pin at reset. -/
  pin0 : Level
deriving DecidableEq, Repr

/-- The ranges of spec/00_scope.md R6. -/
abbrev Params.Valid (p : Params) : Prop :=
  8 ≤ p.w ∧ p.w ≤ 16 ∧ 1 ≤ p.qCap ∧ p.qCap ≤ 32767 ∧ 1 ≤ p.sCap ∧ p.sCap ≤ 65535 ∧ p.base % 128 = 0

/-- The values of the spec's own examples (spec/00_scope.md R6, last column; PIN0 = 1: spec/95_test_vectors.md section 0).
DESIGN CHOICE for `State.reset` only, notes/assumptions/1.md: the spec leaves every one of them open. -/
def Params.examples : Params := { w := 16, qCap := 64, sCap := 64, base := 0, pin0 := true }

namespace Config

/-- What an entry of QUEUE at an index of LEN or more holds: "unspecified contents that no rule reads"
(spec/10_state.md R49, spec/93_implementation_defined.md I7, any value). A free value; read only in states that no run
reaches (notes/assumptions/11.md). -/
opaque staleEntry : Nat → Pulse

/-- `PSC_DIV`: the tick divisor of each prescaler select, "any function; not used by any rule" (spec/00_scope.md R6,
spec/93_implementation_defined.md I11). -/
opaque pscDiv : BitVec 4 → Nat

/-- `PERIOD_UNIT`: the unit of CLKPERIOD.PERIOD (spec/10_state.md R25, spec/93_implementation_defined.md I12). -/
opaque periodUnit : Nat

end Config

end Sys2Proof
end

