-- ==== Sys2Proof/Machine/State.lean ====
section
/-! DEFINITION. The state of the block, of its host and of its environment; the reasons a step can stop; reset.

The fields are the named fields of spec/10_state.md, grouped by the components of spec/00_scope.md R3; INVENTORY.md lists
them with their rules. Every register of the window is a view of them (Machine/Ops.lean). -/

namespace Sys2Proof.Machine

/-- The status codes of RESULT.CODE (spec/30_encoding.md R86). Values 6 and 7 "are never written" and do not exist here. -/
inductive Status where
  | ok
  | readingStopped
  | busNotConfigured
  | busAlreadyRunning
  | queueFull
  | badCommand
deriving DecidableEq, Repr

/-- The capture phase CAPCFG.PHASE (spec/10_state.md R26). -/
inductive Phase where
  | off
  | waitStart
  | first
  | second
deriving DecidableEq, Repr

/-- FSA_STATUS.STATE (spec/10_state.md R37). -/
inductive FsaState where
  | idle
  | malformed
  | leadingPulse
  | messageBody
deriving DecidableEq, Repr

/-- The novelty of a code: New, Repeat, Malformed (spec/10_state.md R40). The value 3 "is never written" and does not
exist here. -/
inductive Novelty where
  | new
  | repeated
  | malformed
deriving DecidableEq, Repr

/-- `Code = {address: 16-bit, command: 8-bit, novelty}` (spec/00_scope.md R11). -/
structure Code where
  addr : BitVec 16
  cmd : Byte
  nov : Novelty
deriving DecidableEq, Repr

/-- Pulse Clock (spec/10_state.md R25). -/
structure Clock where
  /-- CLKCFG.PSC -/
  psc : BitVec 4
  /-- CLKCFG.CLK_SET -/
  clkSet : Bool
  /-- CLKPERIOD.PERIOD -/
  period : BitVec 24
deriving DecidableEq, Repr

/-- Pulse Capture: CAPCFG, CAP_CNT and CAP_FIRST (spec/10_state.md R26 to R28). -/
structure Capture where
  /-- CAPCFG.EN -/
  en : Bool
  /-- CAPCFG.IDLE -/
  idle : Level
  /-- CAPCFG.NC -/
  nc : Bool
  /-- CAPCFG.PHASE -/
  phase : Phase
  /-- CAPCFG.EDGE_TYPE -/
  edgeType : EdgeType
  /-- CAPCFG.PIN_IN -/
  pinIn : Level
  /-- CAP_CNT.COUNT -/
  count : Half
  /-- CAP_FIRST.FIRST -/
  first : Half
deriving DecidableEq, Repr

/-- LAST_PULSE and LAST_PULSE_T (spec/10_state.md R29). -/
structure LastPulse where
  /-- LAST_PULSE.FIRST, LAST_PULSE.SECOND and LAST_PULSE_T.TYPE -/
  pulse : Pulse
  /-- LAST_PULSE_T.VALID -/
  valid : Bool
  /-- LAST_PULSE_T.PCOUNT -/
  pcount : BitVec 16
deriving DecidableEq, Repr

/-- The four canonical shapes, each with its bit of SHAPE_TYPE as its type, and MARGIN (spec/10_state.md R30, R35, R36;
spec/43_tolerance.md R202). -/
structure Shapes where
  lead : Pulse
  rep : Pulse
  one : Pulse
  zero : Pulse
  margin : BitVec 16
deriving DecidableEq, Repr

/-- NEC FSA (spec/10_state.md R37 to R40). -/
structure Fsa where
  /-- FSA_STATUS.STATE -/
  state : FsaState
  /-- FSA_STATUS.BITS -/
  bits : BitVec 6
  /-- FSA_SHIFT.SHIFT -/
  shift : Word
  /-- FSA_STORED -/
  stored : Code
deriving DecidableEq, Repr

/-- The single-slot mailbox (spec/10_state.md R42). -/
structure Mailbox where
  /-- MBX.ADDR, MBX.CMD and MBX.NOV -/
  code : Code
  /-- MBX.READY -/
  ready : Bool
deriving DecidableEq, Repr

/-- Pulse Transmit Queue (spec/10_state.md R46 to R53). LEN and STAGE_LEN are the lengths of the two lists: an entry at an
index of LEN or more (of STAGE_LEN or more) has unspecified contents and is not stored (notes/assumptions/11.md). -/
structure Tx where
  /-- TXCFG.TX_IDLE -/
  idle : Level
  /-- TX_STATUS.PIN_OUT -/
  pinOut : Level
  /-- TX_STATUS.PRESEL -/
  presel : Level
  /-- QUEUE[0..LEN-1], in send order -/
  queue : List Pulse
  /-- STAGE[0..STAGE_LEN-1] -/
  stage : List Pulse
  /-- TX_CURSOR.CURSOR -/
  cursor : BitVec 17
  /-- TX_CNT.COUNT -/
  count : Half
  /-- TX_CMP.CMP -/
  cmp : Half
  /-- TXD.FIRST -/
  txdFirst : Half
  /-- TXD.SECOND -/
  txdSecond : Half
deriving DecidableEq, Repr

/-- The width of a host access (spec/20_memory.md R62, R63): 1, 2 or 4 bytes. -/
inductive Width where
  | byte
  | half
  | word
deriving DecidableEq, Repr

/-- The reader's address modes (spec/45_reader.md R241). -/
inductive AddressMode where
  | exactMatch
  | bitmask
  | reverseBitmask
  | ignore
deriving DecidableEq, Repr

/-- `ReaderConfig`: host state, "immutable for the lifetime of one open reader" (spec/45_reader.md R240). -/
structure ReaderConfig where
  respectRepeats : Bool
  deviceAddress : BitVec 16
  mode : AddressMode
deriving DecidableEq, Repr

/-- The host's reader procedure (spec/45_reader.md R244): not called, in its loop, or returned with a command byte. -/
inductive Reader where
  | closed
  | waiting (config : ReaderConfig)
  | returned (cmd : Byte)
deriving DecidableEq, Repr

/-- One step of one agent (spec/00_scope.md R10, R12), waiting to happen. -/
inductive Stimulus where
  /-- HOST: `MemRead(addr, width)`. -/
  | hostRead (width : Width) (addr : Nat)
  /-- HOST: `MemWrite(addr, width, v)`. -/
  | hostWrite (width : Width) (addr : Nat) (v : Word)
  /-- HOST: calls `read(config)` (spec/45_reader.md R244). -/
  | readerOpen (config : ReaderConfig)
  /-- HOST: one pass of the loop of `read` (spec/45_reader.md R244), one read of MBX_CODE. -/
  | readerPoll
  /-- TICK: one period of the prescaled clock. -/
  | tick
  /-- ENV: the filtered input pin changes to level `v`. -/
  | edge (v : Level)
deriving DecidableEq, Repr

/-- The whole state: plain data. -/
structure State where
  /-- the implementation parameters; no step changes them -/
  params : Params
  /-- RESULT.CODE (spec/10_state.md R24) -/
  result : Status
  /-- CLKCFG and CLKPERIOD -/
  clock : Clock
  /-- CAPCFG, CAP_CNT and CAP_FIRST -/
  cap : Capture
  /-- LAST_PULSE and LAST_PULSE_T -/
  last : LastPulse
  /-- SHAPE_LEAD, SHAPE_REP, SHAPE_ONE, SHAPE_ZERO, SHAPE_TYPE and MARGIN -/
  shapes : Shapes
  /-- FSA_STATUS, FSA_SHIFT and FSA_STORED -/
  fsa : Fsa
  /-- the mailbox, seen as MBX_CODE and MBX_PEEK -/
  mbx : Mailbox
  /-- TXCFG, TX_STATUS, TX_LEN, TX_CURSOR, TX_CNT, TX_CMP, TXD, QUEUE and STAGE -/
  tx : Tx
  /-- the model's: the word that the host's last read returned, if any (notes/assumptions/9.md) -/
  hostData : Option Word
  /-- the model's: the host's reader procedure (notes/assumptions/10.md) -/
  reader : Reader
  /-- the model's: the steps of the agents still to come, first the next one (notes/assumptions/2.md) -/
  pending : List Stimulus
deriving DecidableEq, Repr

/-- The faults. There are none: "There is no fault outcome, because nothing in the block is fatal"
(spec/60_exceptions.md R278, R265). -/
inductive Fault where
deriving DecidableEq, Repr

/-- The refusals: reasons for which a step has no meaning in the model. -/
inductive Refusal where
  /-- an instruction whose meaning is not written yet; raised by an arm of `exec` only; safe. No arm raises it. -/
  | notModelled (mnemonic : String)
  /-- a host access of width 1 or 2 inside the window (spec/20_memory.md R63, R64, SubWordAccess); raised by
  `memRead` and `memWrite`; safe: the run ends at that access, as the spec says -/
  | subWordAccess
  /-- a host access with `addr[1:0]` not 0 inside the window (spec/20_memory.md R63, R64, MisalignedAccess); raised by
  `memRead` and `memWrite`; safe: the run ends at that access, as the spec says -/
  | misalignedAccess
deriving DecidableEq, Repr

/-- The registers of the window (spec/10_state.md R22); `reserved` stands for each of the offsets 0x6C to 0x7C. -/
inductive Reg where
  | cmd
  | result
  | clkcfg
  | clkperiod
  | capcfg
  | capCnt
  | capFirst
  | lastPulse
  | lastPulseT
  | shapeLead
  | shapeRep
  | shapeOne
  | shapeZero
  | shapeType
  | margin
  | fsaStatus
  | fsaShift
  | fsaStored
  | mbxCode
  | mbxPeek
  | txcfg
  | txStatus
  | txLen
  | txCursor
  | txCnt
  | txCmp
  | txd
  | reserved
deriving DecidableEq, Repr

/-- What a host access reaches (spec/20_memory.md R62 to R64, spec/10_state.md R55). -/
inductive Access where
  /-- no byte of the window: not an access to the block -/
  | outside
  /-- an access that the spec gives no meaning -/
  | refuse (r : Refusal)
  /-- an aligned access of 4 bytes -/
  | register (r : Reg)
deriving DecidableEq, Repr

/-- What one step answers. -/
abbrev Result := Host.Outcome State Fault Refusal

/-- A pulse of zeros: the reset value of the pulse-holding registers (spec/70_reset_and_hazards.md R290). -/
def zeroPulse : Pulse := { first := 0, second := 0, type := .rising }

/-- The reset value of FSA_STORED and of the mailbox's code: 0, 0, Malformed (spec/70_reset_and_hazards.md R290). -/
def resetCode : Code := { addr := 0, cmd := 0, nov := .malformed }

/-- The state after reset of a block with the given parameters: the table of spec/70_reset_and_hazards.md R290. Nothing is
pending, the host has read nothing and its reader is closed. -/
def State.resetWith (p : Params) : State where
  params := p
  result := .ok
  clock := { psc := 0, clkSet := false, period := 0 }
  cap :=
    { en := false, idle := false, nc := false, phase := .off, edgeType := .rising, pinIn := p.pin0, count := 0, first := 0 }
  last := { pulse := zeroPulse, valid := false, pcount := 0 }
  shapes := { lead := zeroPulse, rep := zeroPulse, one := zeroPulse, zero := zeroPulse, margin := 0 }
  fsa := { state := .idle, bits := 0, shift := 0, stored := resetCode }
  mbx := { code := resetCode, ready := false }
  tx :=
    { idle := false, pinOut := false, presel := false, queue := [], stage := [], cursor := 0, count := 0, cmp := 0,
      txdFirst := 0, txdSecond := 0 }
  hostData := none
  reader := .closed
  pending := []

/-- The machine right after reset, with the parameters of the spec's own examples (notes/assumptions/1.md). -/
def State.reset : State := State.resetWith Params.examples

end Sys2Proof.Machine
end

