-- ==== Sys2Proof/Machine/Operands.lean ====
section
/-! DEFINITION. Operands: W-bit values, the numbers of the named sets, register words, and the waveform functions that
read the Output Queue. -/

namespace Sys2Proof.Machine

/-- `2^W`. -/
def modulus (p : Params) : Nat := 2 ^ p.w

/-- `OVERFLOW = 2^W - 1` (spec/00_scope.md R6, spec/41_capture.md R139). -/
def overflow (p : Params) : Half := BitVec.ofNat 16 (modulus p - 1)

/-- `n mod 2^W`, as a W-bit value (spec/00_scope.md R8). -/
def wrap (p : Params) (n : Nat) : Half := BitVec.ofNat 16 (n % modulus p)

/-- `v[W-1:0]`: the low W bits of a half that the host writes (spec/10_state.md R30, R53). -/
def lowW (p : Params) (v : Half) : Half := wrap p v.toNat

/-- The FIRST field of a pulse word: bits [15:0] (spec/30_encoding.md R89). -/
def firstField (v : Word) : Half := v.extractLsb' 0 16

/-- The SECOND field of a pulse word: bits [31:16] (spec/30_encoding.md R89). -/
def secondField (v : Word) : Half := v.extractLsb' 16 16

/-- A pulse word: SECOND above FIRST (spec/30_encoding.md R89). -/
def pulseWord (first second : Half) : Word := second ++ first

/-- novelty: 0 = New, 1 = Repeat, 2 = Malformed (spec/30_encoding.md R88). -/
def Novelty.toBits (n : Novelty) : BitVec 2 :=
  match n with
  | .new => 0
  | .repeated => 1
  | .malformed => 2

/-- FSA state: 0 = Idle, 1 = Malformed, 2 = LeadingPulse, 3 = MessageBody (spec/30_encoding.md R88). -/
def FsaState.toBits (s : FsaState) : BitVec 2 :=
  match s with
  | .idle => 0
  | .malformed => 1
  | .leadingPulse => 2
  | .messageBody => 3

/-- capture phase: 0 = Off, 1 = WaitStart, 2 = First, 3 = Second (spec/30_encoding.md R88). -/
def Phase.toBits (p : Phase) : BitVec 2 :=
  match p with
  | .off => 0
  | .waitStart => 1
  | .first => 2
  | .second => 3

/-- A code word with bits 31 to 26 zero: NOV [25:24], CMD [23:16], ADDR [15:0] (spec/30_encoding.md R89). -/
def codeWord (c : Code) : Word := 0#6 ++ c.nov.toBits ++ c.cmd ++ c.addr

/-- The mailbox word `{READY, 5'b0, NOV, CMD, ADDR}` (spec/10_state.md R43). -/
def mailboxWord (m : Mailbox) : Word :=
  BitVec.ofBool m.ready ++ 0#5 ++ m.code.nov.toBits ++ m.code.cmd ++ m.code.addr

/-- A shape, or TXD, as a write of `v` leaves it: each half keeps its low W bits (spec/10_state.md R30, R53). -/
def shapeWrite (p : Params) (v : Word) (old : Pulse) : Pulse :=
  { old with first := lowW p (firstField v), second := lowW p (secondField v) }

/-- The level of the first half of a pulse: Rising is "low then high", Falling is "high then low"
(spec/00_scope.md R11, spec/42_transmit.md R160). -/
def firstLevel (t : EdgeType) : Level := t.toBit

/-- The edge_type of a pulse whose first half is at the level `~idle` (spec/41_capture.md R134): a low first half is
Rising. -/
def edgeTypeOfIdle (idle : Level) : EdgeType := EdgeType.ofBit (!idle)

/-- `QUEUE[i]`; beyond LEN, unspecified contents. -/
def queueEntry (q : List Pulse) (i : Nat) : Pulse :=
  match q[i]? with
  | some e => e
  | none => Config.staleEntry i

/-- `L(h)`: the level of half-pulse `h` of the queue (spec/42_transmit.md R160). -/
def halfLevel (q : List Pulse) (h : Nat) : Level :=
  if h % 2 = 0 then firstLevel (queueEntry q (h / 2)).type else !firstLevel (queueEntry q (h / 2)).type

/-- `D(h)`: the length in ticks of half-pulse `h` of the queue (spec/42_transmit.md R160). -/
def halfWidth (q : List Pulse) (h : Nat) : Half :=
  if h % 2 = 0 then (queueEntry q (h / 2)).first else (queueEntry q (h / 2)).second

end Sys2Proof.Machine
end

