-- ==== Sys2Proof/Machine/Flags.lean ====
section
/-! DEFINITION. Status codes and the views that serve as flags: RESULT.CODE, BUSY, SUPPRESS. -/

namespace Sys2Proof.Machine

/-- The number of a status code in RESULT.CODE (spec/30_encoding.md R86). -/
def Status.code (st : Status) : BitVec 3 :=
  match st with
  | .ok => 0
  | .readingStopped => 1
  | .busNotConfigured => 2
  | .busAlreadyRunning => 3
  | .queueFull => 4
  | .badCommand => 5

/-- The codes that report a failure; Ok and ReadingStopped report a success (spec/60_exceptions.md R261, R262). -/
def Status.isError (st : Status) : Bool :=
  match st with
  | .ok => false
  | .readingStopped => false
  | .busNotConfigured => true
  | .busAlreadyRunning => true
  | .queueFull => true
  | .badCommand => true

/-- `TX_STATUS.BUSY`, the view `LEN > 0` (spec/10_state.md R47). -/
def Tx.busy (tx : Tx) : Bool := decide (0 < tx.queue.length)

/-- The busy condition of SET_CLOCK: `EN = 1` or `LEN > 0` (spec/40_clock.md R111). -/
def clockBusy (s : State) : Bool := s.cap.en || s.tx.busy

/-- A half-pulse is pending: PHASE is First or Second (spec/41_capture.md R130). -/
def Phase.halfPending (p : Phase) : Bool :=
  match p with
  | .off => false
  | .waitStart => false
  | .first => true
  | .second => true

/-- `SUPPRESS`, the predicate `FSA_STORED.NOV = 2` (spec/10_state.md R41). -/
def Fsa.suppress (f : Fsa) : Bool := decide (f.stored.nov = .malformed)

end Sys2Proof.Machine
end

