-- ==== Sys2Proof/Machine/Ops.lean ====
section
/-! DEFINITION. The shared operations: replacing one component of the state, recording a status, delivering a code, and the
register window.

The block takes no exception and returns from none (spec/60_exceptions.md R260, R269). Its one way to report an error is
`status(s)` of spec/00_scope.md R9, here `State.setResult`. -/

namespace Sys2Proof.Machine

/-- `status(st)`: writes RESULT.CODE (spec/00_scope.md R9, spec/10_state.md R24). -/
def State.setResult (st : Status) (s : State) : State := { s with result := st }

/-- Replaces the Pulse Clock fields. -/
def State.setClock (c : Clock) (s : State) : State := { s with clock := c }

/-- Replaces the Pulse Capture fields. -/
def State.setCap (c : Capture) (s : State) : State := { s with cap := c }

/-- Replaces LAST_PULSE and LAST_PULSE_T. -/
def State.setLast (l : LastPulse) (s : State) : State := { s with last := l }

/-- Replaces the shapes and MARGIN. -/
def State.setShapes (h : Shapes) (s : State) : State := { s with shapes := h }

/-- Replaces the FSA fields. -/
def State.setFsa (f : Fsa) (s : State) : State := { s with fsa := f }

/-- Replaces the mailbox. -/
def State.setMbx (m : Mailbox) (s : State) : State := { s with mbx := m }

/-- Replaces the transmit fields. -/
def State.setTx (t : Tx) (s : State) : State := { s with tx := t }

/-- Records the word that a host read returned. -/
def State.setHostData (w : Word) (s : State) : State := { s with hostData := some w }

/-- Replaces the state of the host's reader. -/
def State.setReader (r : Reader) (s : State) : State := { s with reader := r }

/-- Replaces the stimuli still to come. -/
def State.setPending (l : List Stimulus) (s : State) : State := { s with pending := l }

/-- `deliver(c)`: writes the code to the mailbox slot and sets READY, whether or not READY was set
(spec/44_nec_fsa.md R218). -/
def deliver (c : Code) (m : Mailbox) : Mailbox := { m with code := c, ready := true }

/-- The register at a word index of the window, its offset being four times the index (spec/10_state.md R22). -/
def regAt (index : Nat) : Reg :=
  match index with
  | 0 => .cmd
  | 1 => .result
  | 2 => .clkcfg
  | 3 => .clkperiod
  | 4 => .capcfg
  | 5 => .capCnt
  | 6 => .capFirst
  | 7 => .lastPulse
  | 8 => .lastPulseT
  | 9 => .shapeLead
  | 10 => .shapeRep
  | 11 => .shapeOne
  | 12 => .shapeZero
  | 13 => .shapeType
  | 14 => .margin
  | 15 => .fsaStatus
  | 16 => .fsaShift
  | 17 => .fsaStored
  | 18 => .mbxCode
  | 19 => .mbxPeek
  | 20 => .txcfg
  | 21 => .txStatus
  | 22 => .txLen
  | 23 => .txCursor
  | 24 => .txCnt
  | 25 => .txCmp
  | 26 => .txd
  | _ => .reserved

/-- The word of a register, before any side effect of reading it: the field layouts of spec/10_state.md R22 to R53, where
"every bit not named in a register's field list reads 0", CMD reads 0 (R23) and a reserved offset reads 0 (R55). -/
def peek (s : State) (r : Reg) : Word :=
  match r with
  | .cmd => 0
  | .result => 0#29 ++ s.result.code
  | .clkcfg => 0#27 ++ BitVec.ofBool s.clock.clkSet ++ s.clock.psc
  | .clkperiod => 0#8 ++ s.clock.period
  | .capcfg =>
    0#24 ++ BitVec.ofBool s.cap.pinIn ++ BitVec.ofBool s.cap.edgeType.toBit ++ s.cap.phase.toBits ++ 0#1
      ++ BitVec.ofBool s.cap.nc ++ BitVec.ofBool s.cap.idle ++ BitVec.ofBool s.cap.en
  | .capCnt => 0#16 ++ s.cap.count
  | .capFirst => 0#16 ++ s.cap.first
  | .lastPulse => pulseWord s.last.pulse.first s.last.pulse.second
  | .lastPulseT => s.last.pcount ++ 0#14 ++ BitVec.ofBool s.last.valid ++ BitVec.ofBool s.last.pulse.type.toBit
  | .shapeLead => pulseWord s.shapes.lead.first s.shapes.lead.second
  | .shapeRep => pulseWord s.shapes.rep.first s.shapes.rep.second
  | .shapeOne => pulseWord s.shapes.one.first s.shapes.one.second
  | .shapeZero => pulseWord s.shapes.zero.first s.shapes.zero.second
  | .shapeType =>
    0#28 ++ BitVec.ofBool s.shapes.zero.type.toBit ++ BitVec.ofBool s.shapes.one.type.toBit
      ++ BitVec.ofBool s.shapes.rep.type.toBit ++ BitVec.ofBool s.shapes.lead.type.toBit
  | .margin => 0#16 ++ s.shapes.margin
  | .fsaStatus => 0#24 ++ s.fsa.bits ++ s.fsa.state.toBits
  | .fsaShift => s.fsa.shift
  | .fsaStored => codeWord s.fsa.stored
  | .mbxCode => mailboxWord s.mbx
  | .mbxPeek => mailboxWord s.mbx
  | .txcfg => 0#31 ++ BitVec.ofBool s.tx.idle
  | .txStatus => 0#29 ++ BitVec.ofBool s.tx.presel ++ BitVec.ofBool s.tx.pinOut ++ BitVec.ofBool s.tx.busy
  | .txLen => BitVec.ofNat 16 s.tx.stage.length ++ BitVec.ofNat 16 s.tx.queue.length
  | .txCursor => 0#15 ++ s.tx.cursor
  | .txCnt => 0#16 ++ s.tx.count
  | .txCmp => 0#16 ++ s.tx.cmp
  | .txd => pulseWord s.tx.txdFirst s.tx.txdSecond
  | .reserved => 0

/-- The byte of the window at a bus address: byte `k` of the register at offset `off` is the byte at `BASE + off + k`
(spec/20_memory.md R61). Bytes cannot be accessed singly (R63); this is the view that says where each bit lies. -/
def windowByte (s : State) (addr : Nat) : Byte :=
  byteOfWord (peek s (regAt ((addr - s.params.base) / 4))) ((addr - s.params.base) % 4)

/-- The read of a register: its word goes to the host, and a read of MBX_CODE clears READY in the same step
(spec/10_state.md R45; spec/20_memory.md R66: every other read has no side effect). -/
def readReg (r : Reg) (s : State) : State :=
  let s' := s.setHostData (peek s r)
  match r with
  | .mbxCode => s'.setMbx { s.mbx with ready := false }
  | _ => s'

/-- The write of TXCFG: ignored while BUSY; else TX_IDLE and PIN_OUT take bit 0 (spec/10_state.md R46). -/
def writeTxcfg (v : Word) (tx : Tx) : Tx :=
  if tx.busy then tx else { tx with idle := v.getLsbD 0, pinOut := v.getLsbD 0 }

/-- The write of SHAPE_TYPE: LEAD [0], REP [1], ONE [2], ZERO [3] (spec/10_state.md R35). -/
def writeShapeType (v : Word) (h : Shapes) : Shapes :=
  { h with
    lead := { h.lead with type := EdgeType.ofBit (v.getLsbD 0) }
    rep := { h.rep with type := EdgeType.ofBit (v.getLsbD 1) }
    one := { h.one with type := EdgeType.ofBit (v.getLsbD 2) }
    zero := { h.zero with type := EdgeType.ofBit (v.getLsbD 3) } }

/-- The write of a register other than CMD, whose write is a command (Machine/Bus.lean): the RW registers of
spec/10_state.md R22 take the value as their rules say, every other write is ignored. -/
def writeReg (r : Reg) (v : Word) (s : State) : State :=
  match r with
  | .shapeLead => s.setShapes { s.shapes with lead := shapeWrite s.params v s.shapes.lead }
  | .shapeRep => s.setShapes { s.shapes with rep := shapeWrite s.params v s.shapes.rep }
  | .shapeOne => s.setShapes { s.shapes with one := shapeWrite s.params v s.shapes.one }
  | .shapeZero => s.setShapes { s.shapes with zero := shapeWrite s.params v s.shapes.zero }
  | .shapeType => s.setShapes (writeShapeType v s.shapes)
  | .margin => s.setShapes { s.shapes with margin := v.extractLsb' 0 16 }
  | .txcfg => s.setTx (writeTxcfg v s.tx)
  | .txd => s.setTx { s.tx with txdFirst := lowW s.params (firstField v), txdSecond := lowW s.params (secondField v) }
  | _ => s

/-- The number of bytes of an access. -/
def Width.bytes (w : Width) : Nat :=
  match w with
  | .byte => 1
  | .half => 2
  | .word => 4

/-- What a host access of a width at a bus address reaches: an access that touches no byte of the window "is not an access
to the block" (spec/10_state.md R55); one of width 1 or 2, or misaligned, is refused (spec/20_memory.md R63, R64), the
width being reported first (spec/95_test_vectors.md V-MEM-4); any other reaches one register (R62). -/
def classify (p : Params) (w : Width) (addr : Nat) : Access :=
  if addr < p.base + 128 ∧ p.base < addr + w.bytes then
    match w with
    | .byte => .refuse .subWordAccess
    | .half => .refuse .subWordAccess
    | .word => if addr % 4 = 0 then .register (regAt ((addr - p.base) / 4)) else .refuse .misalignedAccess
  else .outside

end Sys2Proof.Machine
end

