-- ==== Sys2Proof/Machine/Fsa.lean ====
section
/-! DEFINITION. The pulse tolerance comparator (spec/43_tolerance.md) and the NEC demodulation FSA (spec/44_nec_fsa.md).

Each rule of the FSA is a function of the FSA and the mailbox, the only state that it writes. -/

namespace Sys2Proof.Machine

/-- One half lies in the window `[b - m, b + m]`, over the integers (R200). -/
def halfWithin (a b : Half) (m : BitVec 16) : Bool :=
  decide ((b.toNat : Int) - m.toNat ≤ a.toNat) && decide ((a.toNat : Int) ≤ b.toNat + m.toNat)

/-- `pulses_equal(a, b, m)` (R200). -/
def pulsesEqual (a b : Pulse) (m : BitVec 16) : Bool :=
  halfWithin a.first b.first m && halfWithin a.second b.second m && decide (a.type = b.type)

/-- Entering Malformed: the stored code is tagged, so that later repeats are suppressed (R211, R213, R215). -/
def enterMalformed (f : Fsa) : Fsa :=
  { f with state := .malformed, stored := { f.stored with nov := .malformed } }

/-- `repeat_path()` (R216). -/
def repeatPath (f : Fsa) (m : Mailbox) : Fsa × Mailbox :=
  if f.suppress then ({ f with state := .idle }, m)
  else
    let c : Code := { f.stored with nov := .repeated }
    ({ f with state := .idle, stored := c }, deliver c m)

/-- `leading_step(p)`: LEAD is tested before REP (R211, R217). -/
def leadingStep (h : Shapes) (p : Pulse) (f : Fsa) (m : Mailbox) : Fsa × Mailbox :=
  if pulsesEqual p h.lead h.margin then ({ f with state := .messageBody, shift := 0, bits := 0 }, m)
  else if pulsesEqual p h.rep h.margin then repeatPath f m
  else (enterMalformed f, m)

/-- `complete(s)`: address s[31:16], command s[15:8], complement s[7:0] (R215). -/
def complete (s : Word) (f : Fsa) (m : Mailbox) : Fsa × Mailbox :=
  let a : BitVec 16 := s.extractLsb' 16 16
  let c : Byte := s.extractLsb' 8 8
  let k : Byte := s.extractLsb' 0 8
  let f' := { f with shift := 0, bits := 0 }
  if k = ~~~c then
    let code : Code := { addr := a, cmd := c, nov := .new }
    ({ f' with stored := code, state := .idle }, deliver code m)
  else (enterMalformed f', m)

/-- The shift register with a new bit at bit 0 (R214). -/
def shifted (f : Fsa) (b : Bool) : Word := (f.shift <<< 1) ||| (BitVec.ofBool b).setWidth 32

/-- `shift_in(b)` (R214). -/
def shiftIn (b : Bool) (f : Fsa) (m : Mailbox) : Fsa × Mailbox :=
  let n := f.bits.toNat + 1
  if n < 32 then ({ f with shift := shifted f b, bits := BitVec.ofNat 6 n }, m)
  else complete (shifted f b) f m

/-- `body_step(p)`: ONE is tested before ZERO; any other shape is a bad bit (R212, R213, R217). -/
def bodyStep (h : Shapes) (p : Pulse) (f : Fsa) (m : Mailbox) : Fsa × Mailbox :=
  if pulsesEqual p h.one h.margin then shiftIn true f m
  else if pulsesEqual p h.zero h.margin then shiftIn false f m
  else (enterMalformed f, m)

/-- `fsa_step(p)`: Idle and Malformed consume the pulse without looking at it (R210). -/
def fsaStep (h : Shapes) (p : Pulse) (f : Fsa) (m : Mailbox) : Fsa × Mailbox :=
  match f.state with
  | .idle => ({ f with state := .leadingPulse }, m)
  | .malformed => ({ f with state := .leadingPulse }, m)
  | .leadingPulse => leadingStep h p f m
  | .messageBody => bodyStep h p f m

/-- The FSA and the mailbox after a sequence of pulses, one `fsa_step` each. -/
def fsaRun (h : Shapes) (ps : List Pulse) (f : Fsa) (m : Mailbox) : Fsa × Mailbox :=
  match ps with
  | [] => (f, m)
  | p :: rest => fsaRun h rest (fsaStep h p f m).1 (fsaStep h p f m).2

end Sys2Proof.Machine
end

