-- ==== Sys2Proof/Machine/Capture.lean ====
section
/-! DEFINITION. Pulse capture: CONFIG_READ, EDGE, pulse assembly and overflow synthesis (spec/41_capture.md). -/

namespace Sys2Proof.Machine

/-- `emit(p)`: records the pulse and hands it to the FSA within the step (R137). -/
def emit (p : Pulse) (s : State) : State :=
  ((s.setLast { pulse := p, valid := true, pcount := s.last.pcount + 1 }).setFsa
    (fsaStep s.shapes p s.fsa s.mbx).1).setMbx (fsaStep s.shapes p s.fsa s.mbx).2

/-- `CONFIG_READ` with EN = 1 (R130). -/
def execConfigRead (idle : Level) (nc : Bool) (s : State) : Result :=
  if s.clock.clkSet = false then .next (s.setResult .busNotConfigured)
  else if s.cap.phase.halfPending ∧ idle ≠ s.cap.idle then .next (s.setResult .busAlreadyRunning)
  else
    .next
      ((s.setCap
        { s.cap with
          phase := if s.cap.phase = .off ∨ idle ≠ s.cap.idle then .waitStart else s.cap.phase
          idle := idle
          nc := nc
          en := true }).setResult .ok)

/-- `CONFIG_READ` with EN = 0: IDLE and NC of the word are ignored, the pending half is dropped, and the FSA is not
touched (R131). -/
def execConfigReadStop (_idle : Level) (_nc : Bool) (s : State) : Result :=
  .next ((s.setCap { s.cap with en := false, phase := .off, first := 0 }).setResult .readingStopped)

/-- `edge_wait_start(v)`: the start edge is the edge that leaves the idle level (R134). -/
def edgeWaitStart (v : Level) (s : State) : State :=
  if v ≠ s.cap.idle then
    s.setCap { s.cap with count := 0, edgeType := edgeTypeOfIdle s.cap.idle, phase := .first }
  else s

/-- `edge_end_first(v)` (R135). -/
def edgeEndFirst (s : State) : State :=
  s.setCap { s.cap with first := s.cap.count, count := 0, phase := .second }

/-- `edge_end_second(v)`: the edge completes the pulse and starts the next one (R136). -/
def edgeEndSecond (s : State) : State :=
  emit { first := s.cap.first, second := s.cap.count, type := s.cap.edgeType }
    (s.setCap { s.cap with count := 0, phase := .first })

/-- What capture does with an edge, the pin already at its new level (R133). -/
def captureEdge (v : Level) (s : State) : State :=
  match s.cap.phase with
  | .off => s
  | .waitStart => edgeWaitStart v s
  | .first => edgeEndFirst s
  | .second => edgeEndSecond s

/-- `EDGE(v)` (R133). "An edge to the level the pin already has is not a step": it does nothing
(notes/assumptions/4.md). -/
def execEdge (v : Level) (s : State) : Result :=
  if v = s.cap.pinIn then .next s
  else .next (captureEdge v (s.setCap { s.cap with pinIn := v }))

/-- `capture_overflow()`: the pending half, if any, is closed by a synthetic pulse (R138). -/
def captureOverflow (s : State) : State :=
  match s.cap.phase with
  | .off => s
  | .waitStart => s
  | .first =>
    emit { first := overflow s.params, second := overflow s.params, type := s.cap.edgeType }
      (s.setCap { s.cap with phase := .waitStart })
  | .second =>
    emit { first := s.cap.first, second := overflow s.params, type := s.cap.edgeType }
      (s.setCap { s.cap with phase := .waitStart })

/-- The capture part of TICK: CAP_CNT counts, and its wrap is the capture overflow (spec/40_clock.md R113). -/
def tickCapture (s : State) : State :=
  let s' := s.setCap { s.cap with count := wrap s.params (s.cap.count.toNat + 1) }
  if s.cap.count.toNat = modulus s.params - 1 then captureOverflow s' else s'

end Sys2Proof.Machine
end

