-- ==== Sys2Proof/Machine/Transmit.lean ====
section
/-! DEFINITION. The pulse transmit queue and its compare-match scheduler (spec/42_transmit.md).

The scheduler's rules are functions of the transmit fields, the only state that they write. -/

namespace Sys2Proof.Machine

/-- `tx_start()` (R164): it reads the queue as the append has left it (notes/assumptions/12.md). -/
def txStart (p : Params) (tx : Tx) : Tx :=
  { tx with
    cursor := 0
    pinOut := halfLevel tx.queue 0
    cmp := wrap p (tx.count.toNat + (halfWidth tx.queue 0).toNat)
    presel := halfLevel tx.queue 1 }

/-- The append of `TX_SEND`: the stage goes to the end of the queue and is emptied (R163). -/
def appendStage (tx : Tx) : Tx := { tx with queue := tx.queue ++ tx.stage, stage := [] }

/-- What `TX_SEND` does once it is accepted: the append, then the start of an idle transmitter, or the preselect fix-up
when the old train is in its last half (R163, R165). -/
def sendStage (p : Params) (tx : Tx) : Tx :=
  if tx.queue.length = 0 then txStart p (appendStage tx)
  else if tx.cursor.toNat + 1 = 2 * tx.queue.length then
    { appendStage tx with presel := halfLevel (tx.queue ++ tx.stage) (2 * tx.queue.length) }
  else appendStage tx

/-- `TX_PUSH type` (R161). -/
def execTxPush (type : EdgeType) (s : State) : Result :=
  if s.tx.stage.length = s.params.sCap then .next (s.setResult .queueFull)
  else
    .next
      ((s.setTx
        { s.tx with
          stage :=
            s.tx.stage ++
              [{ first := lowW s.params s.tx.txdFirst, second := lowW s.params s.tx.txdSecond, type := type }] }).setResult
        .ok)

/-- `TX_CLEAR_STAGE` (R162). -/
def execTxClearStage (s : State) : Result := .next ((s.setTx { s.tx with stage := [] }).setResult .ok)

/-- `TX_SEND` (R163). -/
def execTxSend (s : State) : Result :=
  if s.clock.clkSet = false then .next (s.setResult .busNotConfigured)
  else if s.tx.stage.length = 0 then .next (s.setResult .ok)
  else if s.tx.queue.length + s.tx.stage.length > s.params.qCap then .next (s.setResult .queueFull)
  else .next ((s.setTx (sendStage s.params s.tx)).setResult .ok)

/-- `tx_complete()`, after the pin has been driven (R171). -/
def txComplete (tx : Tx) : Tx := { tx with queue := [], cursor := 0, presel := tx.idle }

/-- `compare_match()` (R170): the pin takes the preselected level; the cursor advances, or the train is complete. -/
def compareMatch (p : Params) (tx : Tx) : Tx :=
  let h := tx.cursor.toNat + 1
  let tx' := { tx with pinOut := tx.presel }
  if h = 2 * tx.queue.length then txComplete tx'
  else
    { tx' with
      cursor := BitVec.ofNat 17 h
      cmp := wrap p (tx.cmp.toNat + (halfWidth tx.queue h).toNat)
      presel := if h + 1 < 2 * tx.queue.length then halfLevel tx.queue (h + 1) else tx.idle }

/-- The transmit part of TICK: TX_CNT counts, and a match is looked for while the queue is not empty
(spec/40_clock.md R113). -/
def tickTx (p : Params) (tx : Tx) : Tx :=
  let tx' := { tx with count := wrap p (tx.count.toNat + 1) }
  if tx'.busy ∧ tx'.count = tx.cmp then compareMatch p tx' else tx'

end Sys2Proof.Machine
end

