-- ==== Sys2Proof/Machine/Clock.lean ====
section
/-! DEFINITION. Pulse Clock: SET_CLOCK, TICK, NOP, and the reserved words (spec/40_clock.md, spec/30_encoding.md R84). -/

namespace Sys2Proof.Machine

/-- `NOP` (R115). -/
def execNop (s : State) : Result := .next (s.setResult .ok)

/-- Any illegal word: BadCommand, and nothing else changes (spec/30_encoding.md R84). -/
def execReserved (_w : Word) (s : State) : Result := .next (s.setResult .badCommand)

/-- `SET_CLOCK psc, period` (R110, R111). -/
def execSetClock (psc : BitVec 4) (period : BitVec 24) (s : State) : Result :=
  if clockBusy s then .next (s.setResult .busAlreadyRunning)
  else
    .next
      ((((s.setClock { psc := psc, period := period, clkSet := true }).setCap { s.cap with count := 0 }).setTx
        { s.tx with count := 0 }).setResult .ok)

/-- Both parts of a TICK. They read and write disjoint state, so their order is immaterial (R113). -/
def tickBoth (s : State) : State :=
  let s' := tickCapture s
  s'.setTx (tickTx s'.params s'.tx)

/-- `TICK` (R113). "While CLK_SET is 0, TICK has no step" (R112): it does nothing (notes/assumptions/4.md). -/
def execTick (s : State) : Result := if s.clock.clkSet then .next (tickBoth s) else .next s

/-- The real time between two TICK steps, in input-clock cycles: `PSC_DIV(PSC)` (R114). No rule depends on it. -/
def tickCycles (s : State) : Nat := Config.pscDiv s.clock.psc

/-- The shared clock period that the host uses to convert ticks: PERIOD in units of PERIOD_UNIT (spec/10_state.md R25).
No rule depends on it. -/
def clockPeriod (s : State) : Nat := s.clock.period.toNat * Config.periodUnit

end Sys2Proof.Machine
end

