-- ==== Sys2Proof/Machine/Dispatch.lean ====
section
/-! DEFINITION. The meaning of each instruction: one arm per constructor of `Instr`. -/

namespace Sys2Proof.Machine

def exec (i : Instr) (s : State) : Host.Outcome State Fault Refusal :=
  match i with
  | .nop => Sys2Proof.Machine.execNop s
  | .setClock psc period => Sys2Proof.Machine.execSetClock psc period s
  | .configRead idle nc => Sys2Proof.Machine.execConfigRead idle nc s
  | .configReadStop idle nc => Sys2Proof.Machine.execConfigReadStop idle nc s
  | .txPush type => Sys2Proof.Machine.execTxPush type s
  | .txSend => Sys2Proof.Machine.execTxSend s
  | .txClearStage => Sys2Proof.Machine.execTxClearStage s
  | .tick => Sys2Proof.Machine.execTick s
  | .edge v => Sys2Proof.Machine.execEdge v s
  | .reserved w => Sys2Proof.Machine.execReserved w s

end Sys2Proof.Machine
end

