-- ==== Sys2Proof/Machine/Reader.lean ====
section
/-! DEFINITION. The NEC Reader: the host procedure `read(config)` over the mailbox (spec/45_reader.md). -/

namespace Sys2Proof.Machine

/-- Address modes: 0 = Exact, 1 = Bitmask, 2 = ReverseBitmask, 3 = Ignore, and every value above 3 is Ignore (R241). -/
def AddressMode.ofCode (n : Nat) : AddressMode :=
  match n with
  | 0 => .exactMatch
  | 1 => .bitmask
  | 2 => .reverseBitmask
  | _ => .ignore

/-- Repeat policy: 0 = Ignore, 1 = Respect; `respect_repeat_codes = (policy = Respect)` (R241). -/
def respectOfPolicy (policy : Nat) : Bool := policy == 1

/-- `chk_exact(r, d)` (R242). -/
def chkExact (r d : BitVec 16) : Bool := r == d

/-- `chk_bitmask(r, d)`: the received address is a subset of the mask (R242). -/
def chkBitmask (r d : BitVec 16) : Bool := (r &&& d) == r

/-- `chk_reverse(r, d)`: the mask is a subset of the received address (R242). -/
def chkReverse (r d : BitVec 16) : Bool := (r &&& d) == d

/-- `accept(mode, r, d)`: a mode starts at its own check and runs every later check (R242). -/
def accept (mode : AddressMode) (r d : BitVec 16) : Bool :=
  match mode with
  | .exactMatch => chkExact r d && chkBitmask r d && chkReverse r d
  | .bitmask => chkBitmask r d && chkReverse r d
  | .reverseBitmask => chkReverse r d
  | .ignore => true

/-- What one pass of the loop of `read` does with the word it has read: the command byte to return, or nothing, and the
loop goes on (R244). -/
def consume (c : ReaderConfig) (w : Word) : Option Byte :=
  let nov : BitVec 2 := w.extractLsb' 24 2
  if w.getLsbD 31 = false then none
  else if nov ≠ 0 ∧ nov ≠ 1 then none
  else if nov = 1 ∧ c.respectRepeats = false then none
  else if accept c.mode (w.extractLsb' 0 16) c.deviceAddress = false then none
  else some (w.extractLsb' 16 8)

/-- What the first accepted word of a sequence of reads of MBX_CODE makes `read` return, if any is accepted. -/
def readResult (c : ReaderConfig) (ws : List Word) : Option Byte := ws.findSome? (consume c)

/-- The host calls `read(config)`. The configuration of an open reader is immutable (R240), so a call while the reader
waits is no step (notes/assumptions/10.md). -/
def readerOpen (c : ReaderConfig) (s : State) : State :=
  match s.reader with
  | .waiting _ => s
  | .closed => s.setReader (.waiting c)
  | .returned _ => s.setReader (.waiting c)

/-- One pass of the loop of `read` (R244): it reads MBX_CODE, which clears READY, and returns or goes on. A poll of a reader
that does not wait is no step (notes/assumptions/10.md). -/
def readerPoll (s : State) : State :=
  match s.reader with
  | .closed => s
  | .returned _ => s
  | .waiting c =>
    match consume c (peek s .mbxCode) with
    | some cmd => (readReg .mbxCode s).setReader (.returned cmd)
    | none => readReg .mbxCode s

end Sys2Proof.Machine
end

