-- ==== Sys2Proof/Machine/Bus.lean ====
section
/-! DEFINITION. The host's register accesses, and the step that each stimulus is (spec/20_memory.md, spec/00_scope.md R10). -/

namespace Sys2Proof.Machine

/-- `MemRead(addr, width)` (spec/20_memory.md R62 to R64). -/
def memRead (w : Width) (addr : Nat) (s : State) : Result :=
  match classify s.params w addr with
  | .outside => .next s
  | .refuse r => .refused r
  | .register r => .next (readReg r s)

/-- `MemWrite(addr, width, v)`: a write of CMD executes the command word in the same step (spec/10_state.md R23), any other
write is a register write (spec/20_memory.md R62 to R64). -/
def memWrite (w : Width) (addr : Nat) (v : Word) (s : State) : Result :=
  match classify s.params w addr with
  | .outside => .next s
  | .refuse r => .refused r
  | .register .cmd => exec (decode v) s
  | .register r => .next (writeReg r v s)

/-- The step of one stimulus. DESIGN CHOICE, notes/assumptions/22.md: a host access is performed as it is also while the
host's `read` waits; the spec leaves open whether the host makes other accesses between two passes of that loop. -/
def perform (a : Stimulus) (s : State) : Result :=
  match a with
  | .hostRead w addr => memRead w addr s
  | .hostWrite w addr v => memWrite w addr v s
  | .readerOpen c => .next (readerOpen c s)
  | .readerPoll => .next (readerPoll s)
  | .tick => exec .tick s
  | .edge v => exec (.edge v) s

/-- The stimulus that runs a command word: an aligned write of the word to CMD (spec/30_encoding.md R80). -/
def commandStimulus (p : Params) (v : Word) : Stimulus := .hostWrite .word p.base v

end Sys2Proof.Machine
end

