-- ==== Sys2Proof/Machine/Step.lean ====
section
/-! DEFINITION. The step: the next pending stimulus happens. -/

namespace Sys2Proof.Machine

/-- One step. The next stimulus is taken off `pending` and happens; with none pending, no agent takes a step
(notes/assumptions/2.md, 3.md). -/
def step (s : State) : Host.Outcome State Fault Refusal :=
  match s.pending with
  | [] => .next s
  | a :: rest => perform a (s.setPending rest)

/-- The state with a command word placed where the step takes its next one: the host's write of the word to CMD is the next
stimulus (notes/assumptions/2.md). -/
def State.withFetchWord (s : State) (nbits w : Nat) : State :=
  s.setPending (commandStimulus s.params (BitVec.ofNat 32 (w % 2 ^ nbits)) :: s.pending)

end Sys2Proof.Machine
end

