-- ==== Sys2Proof/Safety.lean ====
section
/-! DEFINITION. What counts as a safe run, and the terms that claims use: the invariant of the block, the waveform that the
Output Queue stands for, what the FSA takes a pulse for, and runs with a fair TICK. -/

namespace Sys2Proof.Machine

/-- A half is a W-bit value. -/
abbrev HalfFits (p : Params) (h : Half) : Prop := h.toNat < modulus p

/-- Both halves of a pulse are W-bit values. -/
abbrev PulseFits (p : Params) (x : Pulse) : Prop := HalfFits p x.first ∧ HalfFits p x.second

/-- The invariant of the capture fields: widths; (a) of spec/10_state.md R54; and the level of the pin while a half is
pending (spec/41_capture.md R134 to R136). -/
structure Capture.Inv (p : Params) (c : Capture) : Prop where
  countFits : HalfFits p c.count
  firstFits : HalfFits p c.first
  /-- R54 (a): `EN = 0` exactly when `PHASE = 0` -/
  enabled : c.en = false ↔ c.phase = .off
  /-- in the first half the pin is away from its idle level (R135) -/
  pinFirst : c.phase = .first → c.pinIn = !c.idle
  /-- in the second half the pin is at its idle level (R136) -/
  pinSecond : c.phase = .second → c.pinIn = c.idle
  /-- the type of the pulse being measured follows from the idle level (R134) -/
  typePending : c.phase.halfPending = true → c.edgeType = edgeTypeOfIdle c.idle

/-- The invariant of the FSA: (f) of spec/10_state.md R54; the register holds no more than the bits received
(spec/44_nec_fsa.md R220); Malformed suppresses repeats (spec/10_state.md R41). -/
structure Fsa.Inv (f : Fsa) : Prop where
  /-- R54 (f): `BITS ≤ 31` between steps -/
  bitsAtMost : f.bits.toNat ≤ 31
  /-- the shift register holds BITS received bits -/
  shiftFits : f.shift.toNat < 2 ^ f.bits.toNat
  /-- "It becomes true on every entry to Malformed" (R41) -/
  suppressed : f.state = .malformed → f.suppress = true

/-- The invariant of the mailbox: (g) of spec/10_state.md R54, in the form that a code that waits is no malformed one
(spec/44_nec_fsa.md R219). -/
abbrev Mailbox.Inv (m : Mailbox) : Prop := m.ready = true → m.code.nov ≠ .malformed

/-- The invariant of the transmit fields: widths and capacities; (c) of spec/10_state.md R54; and what the pin and the
preselect hold while a train is played (spec/42_transmit.md R164, R165, R170, R171). -/
structure Tx.Inv (p : Params) (tx : Tx) : Prop where
  countFits : HalfFits p tx.count
  cmpFits : HalfFits p tx.cmp
  txdFits : HalfFits p tx.txdFirst ∧ HalfFits p tx.txdSecond
  queueFits : ∀ e ∈ tx.queue, PulseFits p e
  stageFits : ∀ e ∈ tx.stage, PulseFits p e
  /-- `LEN` is at most Q_CAP (spec/10_state.md R48) -/
  queueCap : tx.queue.length ≤ p.qCap
  /-- `STAGE_LEN` is at most S_CAP (spec/10_state.md R48) -/
  stageCap : tx.stage.length ≤ p.sCap
  /-- R54 (c), first part -/
  cursorBusy : tx.busy = true → tx.cursor.toNat < 2 * tx.queue.length
  /-- R54 (c), second part -/
  quietIdle : tx.busy = false → tx.cursor = 0 ∧ tx.pinOut = tx.idle
  /-- the pin is at the level of the half that is played -/
  pinPlays : tx.busy = true → tx.pinOut = halfLevel tx.queue tx.cursor.toNat
  /-- the preselect is the level of the next half, or the idle level in the last half -/
  preselNext : tx.busy = true →
    tx.presel =
      if tx.cursor.toNat + 1 < 2 * tx.queue.length then halfLevel tx.queue (tx.cursor.toNat + 1) else tx.idle

/-- The invariant of the block (spec/10_state.md R54 and the relations that the rules of 41 to 44 keep). -/
structure State.Inv (s : State) : Prop where
  paramsValid : s.params.Valid
  cap : s.cap.Inv s.params
  lastFits : PulseFits s.params s.last.pulse
  /-- no pulse counted before the first one (spec/10_state.md R29) -/
  lastNone : s.last.valid = false → s.last.pcount = 0
  shapesFit : PulseFits s.params s.shapes.lead ∧ PulseFits s.params s.shapes.rep ∧ PulseFits s.params s.shapes.one ∧
    PulseFits s.params s.shapes.zero
  fsa : s.fsa.Inv
  mbx : s.mbx.Inv
  tx : s.tx.Inv s.params
  /-- R54 (b): `EN = 1` only with `CLK_SET = 1` -/
  enClk : s.cap.en = true → s.clock.clkSet = true
  /-- R54 (d): `BUSY = 1` only with `CLK_SET = 1` -/
  busyClk : s.tx.busy = true → s.clock.clkSet = true

/-- A step that goes on: the run is not ended by a refused access (spec/60_exceptions.md R278). -/
def StepsOn (s : State) : Prop := ∃ t, step s = .next t

/-! The waveform of a train. -/

/-- `D'(h)`: a half of width 0 lasts `2^W` ticks (spec/42_transmit.md R160, R172). -/
def halfTicks (p : Params) (d : Half) : Nat := if d.toNat = 0 then modulus p else d.toNat

/-- The levels of `n` halves of a queue from half `h` on, one entry per tick. -/
def wavePart (p : Params) (q : List Pulse) (h n : Nat) : List Level :=
  match n with
  | 0 => []
  | k + 1 => List.replicate (halfTicks p (halfWidth q h)) (halfLevel q h) ++ wavePart p q (h + 1) k

/-- The waveform of a train: half `h` at level `L(h)` for `D'(h)` ticks, in send order (spec/42_transmit.md R172). -/
def waveform (p : Params) (q : List Pulse) : List Level := wavePart p q 0 (2 * q.length)

/-- The ticks until the next compare match: TX_CMP comes round again after a full wrap when it equals TX_CNT
(spec/42_transmit.md R160). -/
def ticksToMatch (p : Params) (tx : Tx) : Nat :=
  if tx.cmp = tx.count then modulus p else (tx.cmp.toNat + modulus p - tx.count.toNat) % modulus p

/-- The levels still to be driven, one entry per tick, the first being the level now. -/
def remaining (p : Params) (tx : Tx) : List Level :=
  if tx.busy then
    List.replicate (ticksToMatch p tx) tx.pinOut ++
      wavePart p tx.queue (tx.cursor.toNat + 1) (2 * tx.queue.length - (tx.cursor.toNat + 1))
  else []

/-- The state with `n` ticks and nothing else pending. -/
def State.withTicks (n : Nat) (s : State) : State := s.setPending (List.replicate n .tick)

/-! What the FSA takes a pulse for. -/

/-- The bit that MessageBody takes a pulse for, if any (spec/44_nec_fsa.md R212). -/
def bitOf (h : Shapes) (p : Pulse) : Option Bool :=
  if pulsesEqual p h.one h.margin then some true
  else if pulsesEqual p h.zero h.margin then some false
  else none

/-- A pulse that LeadingPulse takes for noise: it is in neither the LEAD nor the REP window (spec/44_nec_fsa.md R211). -/
def isNoise (h : Shapes) (p : Pulse) : Bool := !pulsesEqual p h.lead h.margin && !pulsesEqual p h.rep h.margin

/-- The 32 bits of a code in the order in which they are received, bit 31 first (spec/44_nec_fsa.md R214). -/
def codeBits (x : Word) : List Bool := (List.range 32).map fun i => x.getLsbD (31 - i)

/-! Runs. -/

/-- An infinite run: the stimulus of each step and the states it passes through. -/
structure Execution where
  sched : Nat → Stimulus
  states : Nat → State
  follows : ∀ n, perform (sched n) (states n) = .next (states (n + 1))

/-- Weak fairness of TICK: "while CLK_SET = 1, TICK is eventually taken" (spec/60_exceptions.md R279). -/
def Execution.FairTick (e : Execution) : Prop :=
  ∀ n, (∀ m, n ≤ m → (e.states m).clock.clkSet = true) → ∃ m, n ≤ m ∧ e.sched m = .tick

end Sys2Proof.Machine
end

