-- ==== Sys2Proof/Certificates/Slice0/Obligations.lean ====
section
/-! DEFINITION. The statements for the provers. Each docstring names the rules of spec/ that the statement formalises. -/

open Sys2Proof Sys2Proof.Machine

/-! ## Reset -/

/-- Reset leaves every field at the value of the table of spec/70_reset_and_hazards.md R290, whatever the parameters. -/
def Obligations.ResetLeavesTableValues : Prop :=
  ∀ p : Params,
    let s := State.resetWith p
    s.result.code = 0 ∧ s.clock.psc = 0 ∧ s.clock.clkSet = false ∧ s.clock.period = 0 ∧
    s.cap.en = false ∧ s.cap.idle = false ∧ s.cap.nc = false ∧ s.cap.phase = .off ∧ s.cap.edgeType = .rising ∧
    s.cap.pinIn = p.pin0 ∧ s.cap.count = 0 ∧ s.cap.first = 0 ∧
    s.last.pulse.first = 0 ∧ s.last.pulse.second = 0 ∧ s.last.pulse.type = .rising ∧ s.last.valid = false ∧
    s.last.pcount = 0 ∧
    (∀ x ∈ [s.shapes.lead, s.shapes.rep, s.shapes.one, s.shapes.zero],
      x.first = 0 ∧ x.second = 0 ∧ x.type = .rising) ∧ s.shapes.margin = 0 ∧
    s.fsa.state = .idle ∧ s.fsa.bits = 0 ∧ s.fsa.shift = 0 ∧
    s.fsa.stored.addr = 0 ∧ s.fsa.stored.cmd = 0 ∧ s.fsa.stored.nov = .malformed ∧
    s.mbx.code.addr = 0 ∧ s.mbx.code.cmd = 0 ∧ s.mbx.code.nov = .malformed ∧ s.mbx.ready = false ∧
    s.tx.idle = false ∧ s.tx.pinOut = false ∧ s.tx.presel = false ∧ s.tx.queue.length = 0 ∧ s.tx.stage.length = 0 ∧
    s.tx.cursor = 0 ∧ s.tx.count = 0 ∧ s.tx.cmp = 0 ∧ s.tx.txdFirst = 0 ∧ s.tx.txdSecond = 0

/-- The state after reset meets the invariant, for all parameters in their ranges. -/
def Obligations.ResetMeetsInvariant : Prop :=
  (∀ p : Params, p.Valid → (State.resetWith p).Inv) ∧ State.reset.Inv

/-! ## Encoding -/

/-- Words written out from the patterns of spec/30_encoding.md R81 decode to the commands they stand for. -/
def Obligations.SampleWordsDecode : Prop :=
  decode 0b00000000000000000000000000000000#32 = .nop ∧
  decode 0b00010000000000000001111101000011#32 = .setClock 3 500 ∧
  decode 0b00100000000000000000000000000011#32 = .configRead true false ∧
  decode 0b00100000000000000000000000000101#32 = .configRead false true ∧
  decode 0b00100000000000000000000000000110#32 = .configReadStop true true ∧
  decode 0b00110000000000000000000000000001#32 = .txPush .falling ∧
  decode 0b01000000000000000000000000000000#32 = .txSend ∧
  decode 0b01010000000000000000000000000000#32 = .txClearStage ∧
  decode 0b00100000000000000000000000001000#32 = .reserved 0x20000008#32 ∧
  decode 0b01100000000000000000000000000000#32 = .reserved 0x60000000#32

/-- For every word and every row of spec/opcode_table.json that has a match and a mask, the word has the row's pattern
exactly when it decodes to that row's instruction (spec/30_encoding.md R81). -/
def Obligations.DecoderFollowsOpcodeTable : Prop :=
  ∀ (w : Word) (r : Row), r ∈ opcodeRows → (r.hits w = true ↔ (decode w).mnemonic = r.mnemonic)

/-- Decoding the word of a well-formed command gives the command back, with every operand; so does decoding its bytes. -/
def Obligations.DecodeOfEncodeIsIdentity : Prop :=
  ∀ (i : Instr), i.wellFormed = true → i.isCommand = true →
    ∃ w bs, encode i = some w ∧ decode w = i ∧ encodeBytes i = some bs ∧
      ∀ rest, decodeBytes (bs ++ rest) = .ok (i, rest)

/-- Every word decodes to a well-formed command whose encoding is the word: no bit of a word is dropped. -/
def Obligations.EncodeOfDecodeIsIdentity : Prop :=
  ∀ w : Word, encode (decode w) = some w ∧ (decode w).wellFormed = true ∧ (decode w).isCommand = true

/-- An illegal word (OP 0x6 to 0xF, or a reserved ARG bit set) reports BadCommand and changes nothing else, in every state:
the reserved-bit check comes before any precondition; and a word that is not illegal never reports BadCommand
(spec/30_encoding.md R84, R85). -/
def Obligations.IllegalWordIsBadCommand : Prop :=
  Status.badCommand.code = 5 ∧
  (∀ w : Word, illegalWord w = true ↔
    (6 ≤ (w >>> 28).toNat ∨
      ((w >>> 28).toNat ∈ [0, 4, 5] ∧ w.toNat % 2 ^ 28 ≠ 0) ∨
      ((w >>> 28).toNat = 2 ∧ 8 ≤ w.toNat % 2 ^ 28) ∨ ((w >>> 28).toNat = 3 ∧ 2 ≤ w.toNat % 2 ^ 28))) ∧
  (∀ (w : Word) (s : State), illegalWord w = true → exec (decode w) s = .next { s with result := .badCommand }) ∧
  (∀ (w : Word) (s : State), exec (.reserved w) s = .next { s with result := .badCommand }) ∧
  (∀ (w : Word) (s t : State), illegalWord w = false → exec (decode w) s = .next t → t.result ≠ .badCommand)

/-! ## The step -/

/-- A step whose next stimulus is the host's write of a word to CMD runs the decoded command on the state with that
stimulus taken off; the events run as themselves; `withFetchWord` places such a write first (spec/10_state.md R23). -/
def Obligations.StepRunsDecodedCommand : Prop :=
  (∀ (s : State) (v : Word) (rest : List Stimulus), s.params.base % 4 = 0 →
    s.pending = .hostWrite .word s.params.base v :: rest → step s = exec (decode v) { s with pending := rest }) ∧
  (∀ (s : State) (rest : List Stimulus), s.pending = .tick :: rest → step s = exec .tick { s with pending := rest }) ∧
  (∀ (s : State) (v : Level) (rest : List Stimulus), s.pending = .edge v :: rest →
    step s = exec (.edge v) { s with pending := rest }) ∧
  (∀ (s : State) (w : Nat), s.params.base % 4 = 0 → w < 2 ^ 32 →
    step (s.withFetchWord 32 w) = exec (decode (BitVec.ofNat 32 w)) s)

/-- No step faults, and a step is refused only at a host access that touches the window and is of width 1 or 2 or
misaligned; every such access that starts in the window is refused (spec/20_memory.md R63, R64; spec/60_exceptions.md R278).
That an access which straddles an end of the window counts as inside it, at the bottom (it starts below BASE) and at the
top (a word at BASE + 125 to BASE + 127, a half at BASE + 127), is the model's choice (notes/assumptions/7.md). -/
def Obligations.OnlyBadAccessesAreRefused : Prop :=
  (∀ (s : State) (f : Fault), step s ≠ .fault f) ∧
  (∀ (s : State) (r : Refusal), step s = .refused r →
    ∃ (w : Width) (addr : Nat), addr < s.params.base + 128 ∧ s.params.base < addr + w.bytes ∧
      (s.pending.head? = some (.hostRead w addr) ∨ ∃ v, s.pending.head? = some (.hostWrite w addr v)) ∧
      ((w ≠ .word ∧ r = .subWordAccess) ∨ (w = .word ∧ addr % 4 ≠ 0 ∧ r = .misalignedAccess))) ∧
  (∀ (s : State) (w : Width) (addr : Nat) (v : Word), s.params.base ≤ addr → addr < s.params.base + 128 → w ≠ .word →
    memRead w addr s = .refused .subWordAccess ∧ memWrite w addr v s = .refused .subWordAccess) ∧
  (∀ (s : State) (addr : Nat) (v : Word), s.params.base ≤ addr → addr < s.params.base + 128 → addr % 4 ≠ 0 →
    memRead .word addr s = .refused .misalignedAccess ∧ memWrite .word addr v s = .refused .misalignedAccess)

/-- An access that touches no byte of the window does nothing to the block (spec/10_state.md R55; that the step goes on is
the model's, notes/assumptions/6.md), nor does a TICK while CLK_SET = 0 or an edge to the level the pin already has
(spec/40_clock.md R112, spec/41_capture.md R133; that such a stimulus is passed over is the model's,
notes/assumptions/4.md). -/
def Obligations.WhatIsNoStepChangesNothing : Prop :=
  (∀ (s : State) (w : Width) (addr : Nat) (v : Word),
    addr + w.bytes ≤ s.params.base ∨ s.params.base + 128 ≤ addr →
    memRead w addr s = .next s ∧ memWrite w addr v s = .next s) ∧
  (∀ s : State, s.clock.clkSet = false → exec .tick s = .next s) ∧
  (∀ s : State, exec (.edge s.cap.pinIn) s = .next s)

/-- Every step from a state that meets the invariant leads to one that does (spec/10_state.md R54 among others). -/
def Obligations.StepKeepsInvariant : Prop := ∀ s t : State, s.Inv → step s = .next t → t.Inv

/-! ## The register window -/

/-- The fields of every register lie at the bits of the map, and every other bit reads 0; the numbers of the phases, the FSA
states, the novelties and the edge types are those of the encoding; and in every state that meets the invariant the bits from
W up of every W-bit field read 0 (spec/10_state.md R22 to R53; spec/30_encoding.md R88, R89). -/
def Obligations.RegistersShowTheirFields : Prop :=
  (Phase.off.toBits = 0 ∧ Phase.waitStart.toBits = 1 ∧ Phase.first.toBits = 2 ∧ Phase.second.toBits = 3) ∧
  (FsaState.idle.toBits = 0 ∧ FsaState.malformed.toBits = 1 ∧ FsaState.leadingPulse.toBits = 2 ∧
    FsaState.messageBody.toBits = 3) ∧
  (Novelty.new.toBits = 0 ∧ Novelty.repeated.toBits = 1 ∧ Novelty.malformed.toBits = 2) ∧
  (EdgeType.rising.toBit.toNat = 0 ∧ EdgeType.falling.toBit.toNat = 1) ∧
  (∀ s : State, s.Inv →
    (∀ r ∈ [Reg.capCnt, .capFirst, .txCnt, .txCmp], (peek s r).toNat < 2 ^ s.params.w) ∧
    (∀ r ∈ [Reg.lastPulse, .shapeLead, .shapeRep, .shapeOne, .shapeZero, .txd],
      (peek s r).toNat % 65536 < 2 ^ s.params.w ∧ (peek s r).toNat / 65536 < 2 ^ s.params.w)) ∧
  ∀ s : State,
    peek s .cmd = 0 ∧ peek s .reserved = 0 ∧
    (peek s .result).toNat = s.result.code.toNat ∧
    (peek s .clkcfg).toNat = s.clock.psc.toNat + 16 * s.clock.clkSet.toNat ∧
    (peek s .clkperiod).toNat = s.clock.period.toNat ∧
    (peek s .capcfg).toNat = s.cap.en.toNat + 2 * s.cap.idle.toNat + 4 * s.cap.nc.toNat
      + 16 * s.cap.phase.toBits.toNat + 64 * s.cap.edgeType.toBit.toNat + 128 * s.cap.pinIn.toNat ∧
    (peek s .capCnt).toNat = s.cap.count.toNat ∧
    (peek s .capFirst).toNat = s.cap.first.toNat ∧
    (peek s .lastPulse).toNat = s.last.pulse.first.toNat + 65536 * s.last.pulse.second.toNat ∧
    (peek s .lastPulseT).toNat = s.last.pulse.type.toBit.toNat + 2 * s.last.valid.toNat + 65536 * s.last.pcount.toNat ∧
    (peek s .shapeLead).toNat = s.shapes.lead.first.toNat + 65536 * s.shapes.lead.second.toNat ∧
    (peek s .shapeRep).toNat = s.shapes.rep.first.toNat + 65536 * s.shapes.rep.second.toNat ∧
    (peek s .shapeOne).toNat = s.shapes.one.first.toNat + 65536 * s.shapes.one.second.toNat ∧
    (peek s .shapeZero).toNat = s.shapes.zero.first.toNat + 65536 * s.shapes.zero.second.toNat ∧
    (peek s .shapeType).toNat = s.shapes.lead.type.toBit.toNat + 2 * s.shapes.rep.type.toBit.toNat
      + 4 * s.shapes.one.type.toBit.toNat + 8 * s.shapes.zero.type.toBit.toNat ∧
    (peek s .margin).toNat = s.shapes.margin.toNat ∧
    (peek s .fsaStatus).toNat = s.fsa.state.toBits.toNat + 4 * s.fsa.bits.toNat ∧
    peek s .fsaShift = s.fsa.shift ∧
    (peek s .fsaStored).toNat = s.fsa.stored.addr.toNat + 65536 * s.fsa.stored.cmd.toNat
      + 16777216 * s.fsa.stored.nov.toBits.toNat ∧
    (peek s .mbxCode).toNat = s.mbx.code.addr.toNat + 65536 * s.mbx.code.cmd.toNat
      + 16777216 * s.mbx.code.nov.toBits.toNat + 2147483648 * s.mbx.ready.toNat ∧
    peek s .mbxPeek = peek s .mbxCode ∧
    (peek s .txcfg).toNat = s.tx.idle.toNat ∧
    (peek s .txStatus).toNat = (decide (0 < s.tx.queue.length)).toNat + 2 * s.tx.pinOut.toNat + 4 * s.tx.presel.toNat ∧
    (peek s .txLen).toNat = s.tx.queue.length % 65536 + 65536 * (s.tx.stage.length % 65536) ∧
    (peek s .txCursor).toNat = s.tx.cursor.toNat ∧
    (peek s .txCnt).toNat = s.tx.count.toNat ∧
    (peek s .txCmp).toNat = s.tx.cmp.toNat ∧
    (peek s .txd).toNat = s.tx.txdFirst.toNat + 65536 * s.tx.txdSecond.toNat

/-- An aligned read of the window gives the host the word of the register at that offset of the map; a read of MBX_CODE
(0x48) also clears READY, and no other read has a side effect (spec/10_state.md R22, R44, R45; spec/20_memory.md R62). -/
def Obligations.ReadsReturnRegisters : Prop :=
  ∀ s : State, s.params.base % 4 = 0 →
    (∀ x ∈
        [(0x00, Reg.cmd), (0x04, .result), (0x08, .clkcfg), (0x0C, .clkperiod), (0x10, .capcfg), (0x14, .capCnt),
          (0x18, .capFirst), (0x1C, .lastPulse), (0x20, .lastPulseT), (0x24, .shapeLead), (0x28, .shapeRep),
          (0x2C, .shapeOne), (0x30, .shapeZero), (0x34, .shapeType), (0x38, .margin), (0x3C, .fsaStatus),
          (0x40, .fsaShift), (0x44, .fsaStored), (0x4C, .mbxPeek), (0x50, .txcfg), (0x54, .txStatus), (0x58, .txLen),
          (0x5C, .txCursor), (0x60, .txCnt), (0x64, .txCmp), (0x68, .txd), (0x6C, .reserved), (0x70, .reserved),
          (0x74, .reserved), (0x78, .reserved), (0x7C, .reserved)],
      memRead .word (s.params.base + x.1) s = .next { s with hostData := some (peek s x.2) }) ∧
    memRead .word (s.params.base + 0x48) s =
      .next { s with hostData := some (peek s .mbxCode), mbx := { s.mbx with ready := false } }

/-- Writes of read-only registers and of reserved offsets are ignored (spec/10_state.md R22, R55; spec/20_memory.md R66):
every word index but CMD, the shapes, SHAPE_TYPE, MARGIN, TXCFG and TXD. -/
def Obligations.OtherWritesAreIgnored : Prop :=
  ∀ (s : State) (k : Nat) (v : Word), s.params.base % 4 = 0 → k < 32 → k ∉ [0, 9, 10, 11, 12, 13, 14, 20, 26] →
    memWrite .word (s.params.base + 4 * k) v s = .next s

/-- Writes of the shapes and of TXD keep the low W bits of each half; SHAPE_TYPE takes one bit per shape, MARGIN the low 16
bits; nothing else changes (spec/10_state.md R30, R35, R36, R53). -/
def Obligations.ShapeAndTxdWrites : Prop :=
  ∀ (s : State) (v : Word), s.params.base % 4 = 0 →
    let b := s.params.base
    let lo : Half := BitVec.ofNat 16 (v.toNat % 2 ^ 16 % 2 ^ s.params.w)
    let hi : Half := BitVec.ofNat 16 (v.toNat / 2 ^ 16 % 2 ^ s.params.w)
    let bitType : Nat → EdgeType := fun j => if v.getLsbD j then .falling else .rising
    memWrite .word (b + 0x24) v s =
      .next { s with shapes := { s.shapes with lead := { s.shapes.lead with first := lo, second := hi } } } ∧
    memWrite .word (b + 0x28) v s =
      .next { s with shapes := { s.shapes with rep := { s.shapes.rep with first := lo, second := hi } } } ∧
    memWrite .word (b + 0x2C) v s =
      .next { s with shapes := { s.shapes with one := { s.shapes.one with first := lo, second := hi } } } ∧
    memWrite .word (b + 0x30) v s =
      .next { s with shapes := { s.shapes with zero := { s.shapes.zero with first := lo, second := hi } } } ∧
    memWrite .word (b + 0x34) v s =
      .next { s with shapes :=
        { s.shapes with
          lead := { s.shapes.lead with type := bitType 0 }
          rep := { s.shapes.rep with type := bitType 1 }
          one := { s.shapes.one with type := bitType 2 }
          zero := { s.shapes.zero with type := bitType 3 } } } ∧
    memWrite .word (b + 0x38) v s =
      .next { s with shapes := { s.shapes with margin := BitVec.ofNat 16 (v.toNat % 2 ^ 16) } } ∧
    memWrite .word (b + 0x68) v s = .next { s with tx := { s.tx with txdFirst := lo, txdSecond := hi } }

/-- A write of TXCFG while BUSY = 1 is ignored; one while BUSY = 0 sets TX_IDLE and PIN_OUT to bit 0
(spec/10_state.md R46). -/
def Obligations.TxcfgWriteNeedsIdleQueue : Prop :=
  ∀ (s : State) (v : Word), s.params.base % 4 = 0 →
    (0 < s.tx.queue.length → memWrite .word (s.params.base + 0x50) v s = .next s) ∧
    (s.tx.queue.length = 0 → memWrite .word (s.params.base + 0x50) v s =
      .next { s with tx := { s.tx with idle := v.getLsbD 0, pinOut := v.getLsbD 0 } })

/-! ## Pulse Clock -/

/-- NOP is the word 0 exactly, reports Ok and changes nothing else; any other word with OP = 0 is BadCommand
(spec/40_clock.md R115). -/
def Obligations.NopReportsOk : Prop :=
  Status.ok.code = 0 ∧ Status.badCommand.code = 5 ∧
  (∀ s : State, exec .nop s = .next { s with result := .ok }) ∧
  (∀ w : Word, decode w = .nop ↔ w = 0) ∧
  (∀ (w : Word) (s : State), (w >>> 28).toNat = 0 → w ≠ 0 → exec (decode w) s = .next { s with result := .badCommand })

/-- SET_CLOCK, every word with OP = 1: BusAlreadyRunning and nothing else while EN = 1 or LEN > 0; else PSC, PERIOD and
CLK_SET are written and both counters cleared (spec/40_clock.md R110, R111). -/
def Obligations.SetClockEffect : Prop :=
  Status.ok.code = 0 ∧ Status.busAlreadyRunning.code = 3 ∧
  (∀ w : Word, (w >>> 28).toNat = 1 →
    decode w = .setClock (BitVec.ofNat 4 (w.toNat % 2 ^ 4)) (BitVec.ofNat 24 (w.toNat / 2 ^ 4 % 2 ^ 24))) ∧
  ∀ (psc : BitVec 4) (period : BitVec 24) (s : State),
    (s.cap.en = true ∨ 0 < s.tx.queue.length →
      exec (.setClock psc period) s = .next { s with result := .busAlreadyRunning }) ∧
    (s.cap.en = false → s.tx.queue.length = 0 →
      exec (.setClock psc period) s =
        .next
          { s with
            clock := { psc := psc, clkSet := true, period := period }
            cap := { s.cap with count := 0 }
            tx := { s.tx with count := 0 }
            result := .ok })

/-- A TICK with no wrap of CAP_CNT and no compare match moves both counters on by one, TX_CNT modulo 2^W, and changes
nothing else; with no half pending, a wrap of CAP_CNT only brings it to 0 (spec/40_clock.md R113). -/
def Obligations.TickCountsBothCounters : Prop :=
  ∀ s : State, s.params.Valid → s.clock.clkSet = true →
    (s.tx.queue.length = 0 ∨ (s.tx.count.toNat + 1) % 2 ^ s.params.w ≠ s.tx.cmp.toNat) →
    (s.cap.count.toNat + 1 ≠ 2 ^ s.params.w ∨ s.cap.phase = .off ∨ s.cap.phase = .waitStart) →
    exec .tick s =
      .next
        { s with
          cap := { s.cap with count := BitVec.ofNat 16 ((s.cap.count.toNat + 1) % 2 ^ s.params.w) }
          tx := { s.tx with count := BitVec.ofNat 16 ((s.tx.count.toNat + 1) % 2 ^ s.params.w) } }

/-- The capture overflow and the compare match of one TICK "read and write disjoint state, so their order within the step
does not change the result" (spec/40_clock.md R113 (a), spec/60_exceptions.md R268 (a)). -/
def Obligations.TickPartsCommute : Prop :=
  ∀ s : State, s.clock.clkSet = true →
    exec .tick s = .next (tickCapture (s.setTx (tickTx s.params s.tx))) ∧
    exec .tick s = .next ((tickCapture s).setTx (tickTx s.params s.tx))

/-- Only SET_CLOCK writes PSC, CLK_SET and PERIOD, and CLK_SET, once set, stays 1 (spec/10_state.md R25,
spec/70_reset_and_hazards.md R292). -/
def Obligations.OnlySetClockWritesClock : Prop :=
  ∀ s t : State, s.params.Valid → step s = .next t →
    (s.clock.clkSet = true → t.clock.clkSet = true) ∧
    (t.clock ≠ s.clock →
      ∃ v psc period, s.pending.head? = some (.hostWrite .word s.params.base v) ∧ decode v = .setClock psc period ∧
        s.cap.en = false ∧ s.tx.queue = [] ∧ t.clock = { psc := psc, clkSet := true, period := period })

/-! ## Commands: results, errors and frames -/

/-- Every command word has a defined effect in every state: it answers a next state. No command touches LAST_PULSE, the
shapes, the FSA or the mailbox, nor what is not the block's (spec/60_exceptions.md R265, spec/20_memory.md R71). -/
def Obligations.EveryCommandWordCompletes : Prop :=
  ∀ (w : Word) (s : State), ∃ t, exec (decode w) s = .next t ∧
    t.last = s.last ∧ t.shapes = s.shapes ∧ t.fsa = s.fsa ∧ t.mbx = s.mbx ∧ t.params = s.params ∧
    t.hostData = s.hostData ∧ t.reader = s.reader ∧ t.pending = s.pending

/-- "A failing command is precise. It changes nothing except RESULT.CODE" (spec/60_exceptions.md R262). -/
def Obligations.FailingCommandIsPrecise : Prop :=
  ∀ (i : Instr) (s t : State), i.isCommand = true → exec i s = .next t →
    t.result = .busNotConfigured ∨ t.result = .busAlreadyRunning ∨ t.result = .queueFull ∨ t.result = .badCommand →
    t = { s with result := t.result }

/-- Which commands report which code (spec/60_exceptions.md R261): the code that a command leaves is one that the table
lists for it, with its cause. -/
def Obligations.ErrorCodesHaveTheirCauses : Prop :=
  ∀ (i : Instr) (s t : State), i.isCommand = true → exec i s = .next t →
    (t.result = .readingStopped ↔ ∃ idle nc, i = .configReadStop idle nc) ∧
    (t.result = .busNotConfigured ↔
      ((∃ idle nc, i = .configRead idle nc) ∨ i = .txSend) ∧ s.clock.clkSet = false) ∧
    (t.result = .busAlreadyRunning ↔
      ((∃ psc period, i = .setClock psc period) ∧ (s.cap.en = true ∨ 0 < s.tx.queue.length)) ∨
      (∃ idle nc, i = .configRead idle nc ∧ s.clock.clkSet = true ∧ idle ≠ s.cap.idle ∧
        (s.cap.phase = .first ∨ s.cap.phase = .second))) ∧
    (t.result = .queueFull ↔
      ((∃ type, i = .txPush type) ∧ s.tx.stage.length = s.params.sCap) ∨
      (i = .txSend ∧ s.clock.clkSet = true ∧ s.tx.stage.length ≠ 0 ∧
        s.params.qCap < s.tx.queue.length + s.tx.stage.length)) ∧
    (t.result = .badCommand ↔ ∃ w, i = .reserved w)

/-- Every command writes RESULT, so what it held before makes no difference; no event writes it, and no register access but
the write of CMD does: if a step changes RESULT, it ran a command (spec/10_state.md R24). -/
def Obligations.OnlyCommandsWriteResult : Prop :=
  (∀ (i : Instr) (s : State) (r : Status), i.isCommand = true → exec i { s with result := r } = exec i s) ∧
  (∀ s t : State, exec .tick s = .next t → t.result = s.result) ∧
  (∀ (v : Level) (s t : State), exec (.edge v) s = .next t → t.result = s.result) ∧
  (∀ s t : State, s.params.Valid → step s = .next t → t.result ≠ s.result →
    ∃ v, s.pending.head? = some (.hostWrite .word s.params.base v) ∧
      exec (decode v) { s with pending := s.pending.tail } = .next t)

/-- The frame of every instruction: what each leaves unchanged when it answers a next state (from the pseudocode of
spec/40_clock.md to spec/42_transmit.md and spec/30_encoding.md R84). -/
def Obligations.InstructionFrames : Prop :=
  ∀ (i : Instr) (s t : State), exec i s = .next t →
    t.params = s.params ∧ t.shapes = s.shapes ∧ t.hostData = s.hostData ∧ t.reader = s.reader ∧ t.pending = s.pending ∧
    ((∀ psc period, i ≠ .setClock psc period) → t.clock = s.clock) ∧
    (i ≠ .tick → (∀ v, i ≠ .edge v) → t.last = s.last ∧ t.fsa = s.fsa ∧ t.mbx = s.mbx) ∧
    (i = .nop ∨ i = .txSend ∨ i = .txClearStage ∨ (∃ type, i = .txPush type) ∨ (∃ w, i = .reserved w) →
      t.cap = s.cap) ∧
    (i = .nop ∨ (∃ idle nc, i = .configRead idle nc) ∨ (∃ idle nc, i = .configReadStop idle nc) ∨ (∃ v, i = .edge v) ∨
        (∃ w, i = .reserved w) →
      t.tx = s.tx) ∧
    (∀ type, i = .txPush type → t.tx = { s.tx with stage := t.tx.stage }) ∧
    (i = .txClearStage → t.tx = { s.tx with stage := [] }) ∧
    (∀ idle nc, i = .configRead idle nc →
      t.cap = { s.cap with en := t.cap.en, idle := t.cap.idle, nc := t.cap.nc, phase := t.cap.phase }) ∧
    (∀ idle nc, i = .configReadStop idle nc →
      t.cap = { s.cap with en := t.cap.en, phase := t.cap.phase, first := t.cap.first }) ∧
    (∀ psc period, i = .setClock psc period →
      t.cap = { s.cap with count := t.cap.count } ∧ t.tx = { s.tx with count := t.tx.count }) ∧
    (i = .txSend → t.tx =
      { s.tx with queue := t.tx.queue, stage := t.tx.stage, cursor := t.tx.cursor, pinOut := t.tx.pinOut,
                  cmp := t.tx.cmp, presel := t.tx.presel }) ∧
    (i = .tick → t.result = s.result ∧ t.cap = { s.cap with count := t.cap.count, phase := t.cap.phase } ∧
      t.tx = { s.tx with queue := t.tx.queue, cursor := t.tx.cursor, pinOut := t.tx.pinOut, cmp := t.tx.cmp,
                         presel := t.tx.presel, count := t.tx.count }) ∧
    (∀ v, i = .edge v → t.result = s.result ∧ t.cap =
      { s.cap with pinIn := t.cap.pinIn, count := t.cap.count, phase := t.cap.phase, edgeType := t.cap.edgeType,
                   first := t.cap.first })

/-! ## Pulse Capture -/

/-- CONFIG_READ with EN = 1: BusNotConfigured without a clock, BusAlreadyRunning when the idle level would change while a
half is pending, else capture is enabled with the new settings, and a pending half survives (spec/41_capture.md R130). -/
def Obligations.ConfigReadEffect : Prop :=
  Status.ok.code = 0 ∧ Status.busNotConfigured.code = 2 ∧ Status.busAlreadyRunning.code = 3 ∧
  (∀ w : Word, w &&& 0xFFFFFFF9#32 = 0x20000001#32 → decode w = .configRead (w.getLsbD 1) (w.getLsbD 2)) ∧
  ∀ (idle : Level) (nc : Bool) (s : State),
    (s.clock.clkSet = false → exec (.configRead idle nc) s = .next { s with result := .busNotConfigured }) ∧
    (s.clock.clkSet = true → (s.cap.phase = .first ∨ s.cap.phase = .second) → idle ≠ s.cap.idle →
      exec (.configRead idle nc) s = .next { s with result := .busAlreadyRunning }) ∧
    (s.clock.clkSet = true → (s.cap.phase = .first ∨ s.cap.phase = .second) → idle = s.cap.idle →
      exec (.configRead idle nc) s = .next { s with cap := { s.cap with nc := nc, en := true }, result := .ok }) ∧
    (s.clock.clkSet = true → (s.cap.phase = .off ∨ s.cap.phase = .waitStart) →
      exec (.configRead idle nc) s =
        .next { s with cap := { s.cap with idle := idle, nc := nc, en := true, phase := .waitStart }, result := .ok })

/-- CONFIG_READ with EN = 0 stops capture and drops the pending half in every state; IDLE and NC of the word have no effect,
and the FSA, the mailbox and LAST_PULSE stay as they were (spec/41_capture.md R131). -/
def Obligations.StopReadingEffect : Prop :=
  Status.readingStopped.code = 1 ∧
  (∀ w : Word, w &&& 0xFFFFFFF9#32 = 0x20000000#32 → decode w = .configReadStop (w.getLsbD 1) (w.getLsbD 2)) ∧
  ∀ (idle : Level) (nc : Bool) (s : State),
    exec (.configReadStop idle nc) s =
      .next { s with cap := { s.cap with en := false, phase := .off, first := 0 }, result := .readingStopped }

/-- An edge while capture is Off only updates PIN_IN; in WaitStart the edge that leaves the idle level starts a pulse, whose
type is `~IDLE`, and the edge to the idle level arms nothing (spec/41_capture.md R133, R134). -/
def Obligations.StartEdgeArmsCapture : Prop :=
  ∀ s : State,
    let v : Level := !s.cap.pinIn
    (s.cap.phase = .off → exec (.edge v) s = .next { s with cap := { s.cap with pinIn := v } }) ∧
    (s.cap.phase = .waitStart → v = s.cap.idle → exec (.edge v) s = .next { s with cap := { s.cap with pinIn := v } }) ∧
    (s.cap.phase = .waitStart → v ≠ s.cap.idle →
      exec (.edge v) s =
        .next { s with cap :=
          { s.cap with
            pinIn := v
            count := 0
            edgeType := if s.cap.idle then .rising else .falling
            phase := .first } })

/-- The edge that ends the first half records CAP_CNT; the edge that ends the second half emits the pulse and is the start
edge of the next one; in every state that meets the invariant the first of these edges goes to the idle level and the second
leaves it (spec/41_capture.md R135, R136, R137). -/
def Obligations.ClosingEdgesRecordAndEmit : Prop :=
  ∀ s : State,
    let v : Level := !s.cap.pinIn
    let p : Pulse := { first := s.cap.first, second := s.cap.count, type := s.cap.edgeType }
    (s.Inv → s.cap.phase = .first → v = s.cap.idle) ∧
    (s.Inv → s.cap.phase = .second → v = !s.cap.idle) ∧
    (s.cap.phase = .first → exec (.edge v) s =
      .next { s with cap := { s.cap with pinIn := v, first := s.cap.count, count := 0, phase := .second } }) ∧
    (s.cap.phase = .second → exec (.edge v) s =
      .next
        { s with
          cap := { s.cap with pinIn := v, count := 0, phase := .first }
          last := { pulse := p, valid := true, pcount := s.last.pcount + 1 }
          fsa := (fsaStep s.shapes p s.fsa s.mbx).1
          mbx := (fsaStep s.shapes p s.fsa s.mbx).2 })

/-- The TICK that wraps CAP_CNT closes a pending half with OVERFLOW: {OVERFLOW, OVERFLOW} in the first half,
{CAP_FIRST, OVERFLOW} in the second; capture waits for a start edge again; with no half pending nothing is emitted
(spec/41_capture.md R138). The transmit part of the same TICK is `tickTx`. -/
def Obligations.CaptureOverflowEmits : Prop :=
  ∀ s : State, s.params.Valid → s.clock.clkSet = true → s.cap.count.toNat + 1 = 2 ^ s.params.w →
    let ov : Half := BitVec.ofNat 16 (2 ^ s.params.w - 1)
    let p : Pulse :=
      { first := if s.cap.phase = .first then ov else s.cap.first, second := ov, type := s.cap.edgeType }
    ((s.cap.phase = .off ∨ s.cap.phase = .waitStart) →
      exec .tick s = .next { s with cap := { s.cap with count := 0 }, tx := tickTx s.params s.tx }) ∧
    ((s.cap.phase = .first ∨ s.cap.phase = .second) →
      exec .tick s =
        .next
          { s with
            cap := { s.cap with count := 0, phase := .waitStart }
            last := { pulse := p, valid := true, pcount := s.last.pcount + 1 }
            fsa := (fsaStep s.shapes p s.fsa s.mbx).1
            mbx := (fsaStep s.shapes p s.fsa s.mbx).2
            tx := tickTx s.params s.tx })

/-- A pulse measures the ticks between its edges: from WaitStart with the pin idle, a start edge, `n1` ticks, an edge, `n2`
ticks and an edge emit exactly one pulse, {n1, n2}, for all `n1, n2 < 2^W` (spec/41_capture.md R134 to R137, R142). -/
def Obligations.EmittedPulseMeasuresTicks : Prop :=
  ∀ (s : State) (n1 n2 : Nat), s.Inv → s.cap.phase = .waitStart → s.cap.pinIn = s.cap.idle →
    n1 < 2 ^ s.params.w → n2 < 2 ^ s.params.w →
    s.pending = .edge (!s.cap.idle) :: (List.replicate n1 .tick ++ .edge s.cap.idle :: (List.replicate n2 .tick ++
      [.edge (!s.cap.idle)])) →
    ∃ t, Host.Core.run Sys2Proof.core (n1 + n2 + 3) s = .next t ∧
      t.last = { pulse := { first := BitVec.ofNat 16 n1, second := BitVec.ofNat 16 n2,
                            type := if s.cap.idle then .rising else .falling },
                 valid := true, pcount := s.last.pcount + 1 } ∧
      t.cap.phase = .first ∧ t.cap.count = 0 ∧
      (t.fsa, t.mbx) = fsaStep s.shapes t.last.pulse s.fsa s.mbx

/-- A second half of 2^W ticks reads OVERFLOW: from WaitStart with the pin idle, a start edge, `n1 < 2^W` ticks, an edge
and then 2^W ticks emit exactly {n1, 2^W - 1}, and capture waits for a start edge (spec/41_capture.md R138, R139). -/
def Obligations.UnendedHalfReadsOverflow : Prop :=
  ∀ (s : State) (n1 : Nat), s.Inv → s.cap.phase = .waitStart → s.cap.pinIn = s.cap.idle → n1 < 2 ^ s.params.w →
    s.pending = .edge (!s.cap.idle) :: (List.replicate n1 .tick ++ .edge s.cap.idle ::
      List.replicate (2 ^ s.params.w) .tick) →
    ∃ t, Host.Core.run Sys2Proof.core (n1 + 2 ^ s.params.w + 2) s = .next t ∧
      t.last = { pulse := { first := BitVec.ofNat 16 n1, second := BitVec.ofNat 16 (2 ^ s.params.w - 1),
                            type := if s.cap.idle then .rising else .falling },
                 valid := true, pcount := s.last.pcount + 1 } ∧
      t.cap.phase = .waitStart ∧ t.cap.count = 0

/-- An edge and an overflow 2^W ticks after the last edge "may be taken either way" (spec/60_exceptions.md R268 (b),
spec/41_capture.md R135, R138, R139), with CAP_CNT at 2^W - 1. In the second half, an edge then a TICK and a TICK then an
edge emit the same pulse {CAP_FIRST, 2^W - 1}, once. In the first half the two orders differ: the edge first records
2^W - 1 as the first half and emits nothing; the TICK first emits {2^W - 1, 2^W - 1}, and the edge is then ignored. -/
def Obligations.EdgeAndOverflowInEitherOrder : Prop :=
  (∀ s a b c d : State, s.params.Valid → s.clock.clkSet = true → s.cap.phase = .second → s.cap.pinIn = s.cap.idle →
    s.cap.count.toNat + 1 = 2 ^ s.params.w →
    exec (.edge (!s.cap.idle)) s = .next a → exec .tick a = .next b →
    exec .tick s = .next c → exec (.edge (!s.cap.idle)) c = .next d →
    b.last = d.last ∧ b.last.pcount = s.last.pcount + 1 ∧ b.last.pulse.first = s.cap.first ∧
      b.last.pulse.second.toNat = 2 ^ s.params.w - 1 ∧ b.fsa = d.fsa ∧ b.mbx = d.mbx ∧ b.tx = d.tx ∧
      b.cap.phase = .first ∧ d.cap.phase = .first) ∧
  (∀ s a b c d : State, s.params.Valid → s.clock.clkSet = true → s.cap.phase = .first → s.cap.pinIn = (!s.cap.idle) →
    s.cap.count.toNat + 1 = 2 ^ s.params.w →
    exec (.edge s.cap.idle) s = .next a → exec .tick a = .next b →
    exec .tick s = .next c → exec (.edge s.cap.idle) c = .next d →
    (b.last = s.last ∧ b.fsa = s.fsa ∧ b.mbx = s.mbx ∧ b.cap.phase = .second ∧
      b.cap.first.toNat = 2 ^ s.params.w - 1) ∧
    (d.last.pcount = s.last.pcount + 1 ∧ d.last.pulse.first.toNat = 2 ^ s.params.w - 1 ∧
      d.last.pulse.second.toNat = 2 ^ s.params.w - 1 ∧ (d.fsa, d.mbx) = fsaStep s.shapes d.last.pulse s.fsa s.mbx ∧
      d.cap.phase = .waitStart) ∧
    b.tx = d.tx)

/-- "No rule of the block reads NC" (spec/41_capture.md R141), nor PSC, nor PERIOD (spec/10_state.md R25): events on two
states that differ only in these end in states that differ only in these. -/
def Obligations.EventsIgnoreNcPscAndPeriod : Prop :=
  ∀ (i : Instr) (s t : State) (nc : Bool) (psc : BitVec 4) (period : BitVec 24),
    i.isCommand = false → exec i s = .next t →
    exec i { s with cap := { s.cap with nc := nc }, clock := { s.clock with psc := psc, period := period } } =
      .next { t with cap := { t.cap with nc := nc }, clock := { t.clock with psc := psc, period := period } }

/-! ## Pulse Transmit Queue -/

/-- TX_PUSH stages one pulse, its halves from TXD, or reports QueueFull and changes nothing else when the stage is full;
TX_CLEAR_STAGE, the word 0x50000000, empties the stage (spec/42_transmit.md R161, R162). -/
def Obligations.StagingEffect : Prop :=
  Status.ok.code = 0 ∧ Status.queueFull.code = 4 ∧
  (∀ w : Word, w &&& 0xFFFFFFFE#32 = 0x30000000#32 →
    decode w = .txPush (if w.getLsbD 0 then .falling else .rising)) ∧
  decode 0x50000000#32 = .txClearStage ∧
  (∀ (type : EdgeType) (s : State),
    (s.tx.stage.length = s.params.sCap → exec (.txPush type) s = .next { s with result := .queueFull }) ∧
    (s.tx.stage.length ≠ s.params.sCap →
      exec (.txPush type) s =
        .next
          { s with
            tx := { s.tx with stage := s.tx.stage ++
              [{ first := BitVec.ofNat 16 (s.tx.txdFirst.toNat % 2 ^ s.params.w)
                 second := BitVec.ofNat 16 (s.tx.txdSecond.toNat % 2 ^ s.params.w)
                 type := type }] }
            result := .ok })) ∧
  (∀ s : State, exec .txClearStage s = .next { s with tx := { s.tx with stage := [] }, result := .ok })

/-- The cases of TX_SEND that append nothing: BusNotConfigured, Ok on an empty stage, QueueFull, in that order; nothing but
RESULT changes (spec/42_transmit.md R163, spec/60_exceptions.md R263). -/
def Obligations.SendThatAppendsNothing : Prop :=
  ∀ s : State,
    (s.clock.clkSet = false → exec .txSend s = .next { s with result := .busNotConfigured }) ∧
    (s.clock.clkSet = true → s.tx.stage = [] → exec .txSend s = .next { s with result := .ok }) ∧
    (s.clock.clkSet = true → s.tx.stage ≠ [] → s.params.qCap < s.tx.queue.length + s.tx.stage.length →
      exec .txSend s = .next { s with result := .queueFull })

/-- TX_SEND on an idle queue starts the train at once: the pin takes the level of the first half, the compare value is
`TX_CNT` plus its width, and the preselect is the other level (spec/42_transmit.md R163, R164). -/
def Obligations.SendStartsTrain : Prop :=
  ∀ (s : State) (e : Pulse) (rest : List Pulse), s.clock.clkSet = true → s.tx.queue = [] → s.tx.stage = e :: rest →
    s.tx.stage.length ≤ s.params.qCap →
    exec .txSend s =
      .next
        { s with
          tx :=
            { s.tx with
              queue := e :: rest
              stage := []
              cursor := 0
              pinOut := decide (e.type = .falling)
              presel := decide (e.type = .rising)
              cmp := BitVec.ofNat 16 ((s.tx.count.toNat + e.first.toNat) % 2 ^ s.params.w) }
          result := .ok }

/-- TX_SEND on a busy queue appends the stage after the train, in order, and inserts no entry; it changes the preselect only
in the last half, to the first level of the appended train (spec/42_transmit.md R163, R165, R173). -/
def Obligations.SendAppendsToTrain : Prop :=
  ∀ (s : State) (e : Pulse) (rest : List Pulse), s.clock.clkSet = true → s.tx.queue ≠ [] → s.tx.stage = e :: rest →
    s.tx.queue.length + s.tx.stage.length ≤ s.params.qCap →
    exec .txSend s =
      .next
        { s with
          tx :=
            { s.tx with
              queue := s.tx.queue ++ e :: rest
              stage := []
              presel :=
                if s.tx.cursor.toNat + 1 = 2 * s.tx.queue.length then decide (e.type = .falling) else s.tx.presel }
          result := .ok }

/-- A compare match drives the preselected level; before the end of the train the cursor advances by one, the compare value
by the width of the next half, and the preselect takes the level of the half after that or the idle level; at the end the
queue is released (spec/42_transmit.md R170). The capture part of the same TICK is `tickCapture`. -/
def Obligations.CompareMatchAdvancesTrain : Prop :=
  ∀ s : State, s.params.Valid → s.clock.clkSet = true → 0 < s.tx.queue.length →
    (s.tx.count.toNat + 1) % 2 ^ s.params.w = s.tx.cmp.toNat →
    let h := s.tx.cursor.toNat + 1
    (h = 2 * s.tx.queue.length →
      exec .tick s =
        .next
          { tickCapture s with
            tx := { s.tx with count := s.tx.cmp, pinOut := s.tx.presel, queue := [], cursor := 0, presel := s.tx.idle } }) ∧
    (∀ (q : Pulse), s.tx.queue[h / 2]? = some q → h < 2 * s.tx.queue.length →
      exec .tick s =
        .next
          { tickCapture s with
            tx :=
              { s.tx with
                count := s.tx.cmp
                pinOut := s.tx.presel
                cursor := BitVec.ofNat 17 h
                cmp := BitVec.ofNat 16
                  ((s.tx.cmp.toNat + (if h % 2 = 0 then q.first else q.second).toNat) % 2 ^ s.params.w)
                presel :=
                  if h % 2 = 0 then decide (q.type = .rising)
                  else
                    match s.tx.queue[h / 2 + 1]? with
                    | some q' => decide (q'.type = .falling)
                    | none => s.tx.idle } })

/-- "Only TX_SEND grows it. … Only the compare-match rule releases it, upon completion" (spec/20_memory.md R75;
spec/42_transmit.md R163, R170, R171): a step that changes the queue either ran TX_SEND, and appended the stage to it, or
was a TICK whose compare match ended the last half of the train, and the queue is empty. -/
def Obligations.QueueGrowsAndIsReleasedOnlySo : Prop :=
  ∀ s t : State, s.params.Valid → step s = .next t → t.tx.queue ≠ s.tx.queue →
    (∃ v, s.pending.head? = some (.hostWrite .word s.params.base v) ∧ decode v = .txSend ∧
      t.tx.queue = s.tx.queue ++ s.tx.stage ∧ t.tx.stage = []) ∨
    (s.pending.head? = some .tick ∧ s.clock.clkSet = true ∧
      (s.tx.count.toNat + 1) % 2 ^ s.params.w = s.tx.cmp.toNat ∧ s.tx.cursor.toNat + 1 = 2 * s.tx.queue.length ∧
      t.tx.queue = [] ∧ t.tx.cursor = 0 ∧ t.tx.pinOut = s.tx.presel)

/-- The transmitter plays the waveform of the train: after a TX_SEND that starts one, the pin after `n` ticks is at the
level of tick `n` of the waveform, half `h` at `L(h)` for `D'(h)` ticks, and when all its ticks have passed the queue is
empty and the pin is idle (spec/42_transmit.md R172). -/
def Obligations.TrainPlaysItsWaveform : Prop :=
  ∀ (s t : State), s.Inv → s.tx.queue = [] → s.tx.stage ≠ [] → exec .txSend s = .next t → t.result = .ok →
    (∀ n l, (waveform s.params s.tx.stage)[n]? = some l →
      ∃ u, Host.Core.run Sys2Proof.core n (t.withTicks n) = .next u ∧ u.tx.pinOut = l ∧ u.tx.queue = s.tx.stage) ∧
    ∃ u, Host.Core.run Sys2Proof.core (waveform s.params s.tx.stage).length
        (t.withTicks (waveform s.params s.tx.stage).length) = .next u ∧
      u.tx.queue = [] ∧ u.tx.pinOut = s.tx.idle

/-- An append to a busy queue inserts no gap: the pin goes on as it would have, then through the waveform of the appended
train, and then to idle, wherever in the train the append falls (spec/42_transmit.md R165, R172, R173). -/
def Obligations.AppendedTrainFollowsWithoutGap : Prop :=
  ∀ (s t : State), s.Inv → s.tx.queue ≠ [] → s.tx.stage ≠ [] → exec .txSend s = .next t → t.result = .ok →
    let levels := remaining s.params s.tx ++ waveform s.params s.tx.stage
    (∀ n l, levels[n]? = some l →
      ∃ u, Host.Core.run Sys2Proof.core n (t.withTicks n) = .next u ∧ u.tx.pinOut = l) ∧
    ∃ u, Host.Core.run Sys2Proof.core levels.length (t.withTicks levels.length) = .next u ∧
      u.tx.queue = [] ∧ u.tx.pinOut = s.tx.idle

/-- Under the fairness premise of spec/60_exceptions.md R279, a train to which nothing is appended completes, whatever the
host and the environment do beside: in a run in which no step makes the queue longer, from every point on there is a later
one at which the queue is released and the pin is idle ("queued output always runs to completion",
spec/42_transmit.md R162). -/
def Obligations.TrainCompletesUnderFairTick : Prop :=
  ∀ e : Execution, (e.states 0).Inv → e.FairTick →
    (∀ n, (e.states (n + 1)).tx.queue.length ≤ (e.states n).tx.queue.length) →
    ∀ m, ∃ n, m ≤ n ∧ (e.states n).tx.busy = false ∧ (e.states n).tx.pinOut = (e.states n).tx.idle

/-! ## Tolerance comparator -/

/-- The comparator is the window `[b - m, b + m]` on both halves, over the integers, and equality of the types
(spec/43_tolerance.md R200). -/
def Obligations.ComparatorIsTheWindow : Prop :=
  ∀ (a b : Pulse) (m : BitVec 16),
    pulsesEqual a b m = true ↔
      ((b.first.toNat : Int) - m.toNat ≤ a.first.toNat ∧ (a.first.toNat : Int) ≤ b.first.toNat + m.toNat) ∧
      ((b.second.toNat : Int) - m.toNat ≤ a.second.toNat ∧ (a.second.toNat : Int) ≤ b.second.toNat + m.toNat) ∧
      a.type = b.type

/-- The comparator is `|a - b| ≤ m` on both halves and equality of the types; it is symmetric, and reflexive at zero
tolerance (spec/43_tolerance.md R201). -/
def Obligations.ComparatorIsSymmetricDistance : Prop :=
  (∀ (a b : Pulse) (m : BitVec 16),
    (pulsesEqual a b m = true ↔
      |(a.first.toNat : Int) - b.first.toNat| ≤ m.toNat ∧ |(a.second.toNat : Int) - b.second.toNat| ≤ m.toNat ∧
        a.type = b.type) ∧
    pulsesEqual a b m = pulsesEqual b a m) ∧
  ∀ a : Pulse, pulsesEqual a a 0 = true

/-! ## NEC FSA and mailbox -/

/-- In Idle and in Malformed a pulse of any shape only moves the FSA to LeadingPulse; in the other two states the pulse goes
to the step of that state (spec/44_nec_fsa.md R210). -/
def Obligations.IdleFsaConsumesAnyPulse : Prop :=
  ∀ (h : Shapes) (p : Pulse) (f : Fsa) (m : Mailbox),
    (f.state = .idle ∨ f.state = .malformed → fsaStep h p f m = ({ f with state := .leadingPulse }, m)) ∧
    (f.state = .leadingPulse → fsaStep h p f m = leadingStep h p f m) ∧
    (f.state = .messageBody → fsaStep h p f m = bodyStep h p f m)

/-- In LeadingPulse: the leading shape, tested first, clears the register and enters MessageBody; the repeat shape returns
to Idle and delivers the stored code as a Repeat unless it is suppressed; any other shape is Malformed
(spec/44_nec_fsa.md R211, R216, R218). -/
def Obligations.LeadingPulseStep : Prop :=
  ∀ (h : Shapes) (p : Pulse) (f : Fsa) (m : Mailbox), f.state = .leadingPulse →
    (pulsesEqual p h.lead h.margin = true →
      fsaStep h p f m = ({ f with state := .messageBody, shift := 0, bits := 0 }, m)) ∧
    (pulsesEqual p h.lead h.margin = false → pulsesEqual p h.rep h.margin = true → f.stored.nov ≠ .malformed →
      fsaStep h p f m =
        ({ f with state := .idle, stored := { f.stored with nov := .repeated } },
         { code := { addr := f.stored.addr, cmd := f.stored.cmd, nov := .repeated }, ready := true })) ∧
    (pulsesEqual p h.lead h.margin = false → pulsesEqual p h.rep h.margin = true → f.stored.nov = .malformed →
      fsaStep h p f m = ({ f with state := .idle }, m)) ∧
    (pulsesEqual p h.lead h.margin = false → pulsesEqual p h.rep h.margin = false →
      fsaStep h p f m = ({ f with state := .malformed, stored := { f.stored with nov := .malformed } }, m))

/-- In MessageBody before the 32nd bit: a shape that is ONE, tested first, or ZERO enters the register at bit 0; any other
shape is Malformed and leaves SHIFT and BITS as they were (spec/44_nec_fsa.md R212, R213, R214). -/
def Obligations.MessageBodyStep : Prop :=
  ∀ (h : Shapes) (p : Pulse) (f : Fsa) (m : Mailbox), f.state = .messageBody →
    (pulsesEqual p h.one h.margin = true → f.bits.toNat < 31 →
      fsaStep h p f m = ({ f with shift := BitVec.ofNat 32 (2 * f.shift.toNat + 1), bits := f.bits + 1 }, m)) ∧
    (pulsesEqual p h.one h.margin = false → pulsesEqual p h.zero h.margin = true → f.bits.toNat < 31 →
      fsaStep h p f m = ({ f with shift := BitVec.ofNat 32 (2 * f.shift.toNat), bits := f.bits + 1 }, m)) ∧
    (pulsesEqual p h.one h.margin = false → pulsesEqual p h.zero h.margin = false →
      fsaStep h p f m = ({ f with state := .malformed, stored := { f.stored with nov := .malformed } }, m))

/-- The 32nd bit completes the code: with `s` the register and the new bit, a low byte that is the complement of the command
byte gives New, stored and delivered, and Idle; any other low byte gives Malformed and keeps ADDR and CMD; SHIFT and BITS
are cleared (spec/44_nec_fsa.md R215, R218). -/
def Obligations.ThirtySecondBitCompletes : Prop :=
  ∀ (h : Shapes) (p : Pulse) (f : Fsa) (m : Mailbox) (b : Bool), f.state = .messageBody → 31 ≤ f.bits.toNat →
    bitOf h p = some b →
    let s := (2 * f.shift.toNat + b.toNat) % 2 ^ 32
    let a : BitVec 16 := BitVec.ofNat 16 (s / 2 ^ 16)
    let c : Byte := BitVec.ofNat 8 (s / 2 ^ 8)
    (s % 2 ^ 8 = 255 - c.toNat →
      fsaStep h p f m =
        ({ state := .idle, bits := 0, shift := 0, stored := { addr := a, cmd := c, nov := .new } },
         { code := { addr := a, cmd := c, nov := .new }, ready := true })) ∧
    (s % 2 ^ 8 ≠ 255 - c.toNat →
      fsaStep h p f m =
        ({ state := .malformed, bits := 0, shift := 0, stored := { f.stored with nov := .malformed } }, m))

/-- A whole frame decodes: from LeadingPulse, a leading pulse and 32 pulses that read as the bits of `x`, bit 31 first,
deliver New {x[31:16], x[15:8]} when x[7:0] is the complement of x[15:8], and otherwise deliver nothing and end Malformed
(spec/44_nec_fsa.md R211 to R215; spec/95_test_vectors.md V-SRC-3, V-SRC-5). -/
def Obligations.FrameFromLeadingPulseDecodes : Prop :=
  ∀ (h : Shapes) (lead : Pulse) (ps : List Pulse) (f : Fsa) (m : Mailbox) (x : Word),
    f.state = .leadingPulse → pulsesEqual lead h.lead h.margin = true →
    ps.map (bitOf h) = (codeBits x).map some →
    fsaRun h (lead :: ps) f m =
      if x.extractLsb' 0 8 = ~~~(x.extractLsb' 8 8) then
        ({ state := .idle, bits := 0, shift := 0,
           stored := { addr := x.extractLsb' 16 16, cmd := x.extractLsb' 8 8, nov := .new } },
         { code := { addr := x.extractLsb' 16 16, cmd := x.extractLsb' 8 8, nov := .new }, ready := true })
      else ({ state := .malformed, bits := 0, shift := 0, stored := { f.stored with nov := .malformed } }, m)

/-- Phase lock: transmissions that each begin with any one pulse and go on with an odd number of pulses that are neither LEAD
nor REP (a frame has 33 of them, a repeat has one) are never decoded from Idle or Malformed: nothing is delivered and the
FSA ends each of them in Malformed (spec/44_nec_fsa.md R222). -/
def Obligations.WellFormedTrafficFromIdleIsLost : Prop :=
  ∀ (h : Shapes) (ts : List (Pulse × List Pulse)) (f : Fsa) (m : Mailbox), f.state = .idle ∨ f.state = .malformed →
    (∀ t ∈ ts, t.2.length % 2 = 1 ∧ ∀ p ∈ t.2, isNoise h p = true) → ts ≠ [] →
    fsaRun h (ts.flatMap fun t => t.1 :: t.2) f m =
      ({ f with state := .malformed, stored := { f.stored with nov := .malformed } }, m)

/-- Suppression is sticky: when the stored code is Malformed, a sequence of pulses in which no New code is stored leaves it
Malformed and delivers nothing, whatever repeat markers it holds (spec/44_nec_fsa.md R216 (a), spec/10_state.md R41). -/
def Obligations.SuppressionLastsUntilNew : Prop :=
  ∀ (h : Shapes) (ps : List Pulse) (f : Fsa) (m : Mailbox), f.stored.nov = .malformed →
    (∀ qs, qs <+: ps → (fsaRun h qs f m).1.stored.nov ≠ .new) →
    (fsaRun h ps f m).1.stored.nov = .malformed ∧ (fsaRun h ps f m).2 = m

/-- The FSA changes only inside a step in which capture emits a pulse; no host access and no command writes it; LAST_PULSE
and PCOUNT move in exactly those steps (spec/20_memory.md R71, spec/10_state.md R29). -/
def Obligations.FsaChangesOnlyOnEmission : Prop :=
  ∀ s t : State, step s = .next t →
    (t.last = s.last ∧ t.fsa = s.fsa ∧ (t.mbx = s.mbx ∨ t.mbx = { s.mbx with ready := false })) ∨
    ((s.pending.head? = some .tick ∨ ∃ v, s.pending.head? = some (.edge v)) ∧
      t.last.valid = true ∧ t.last.pcount = s.last.pcount + 1 ∧
      (t.fsa, t.mbx) = fsaStep s.shapes t.last.pulse s.fsa s.mbx)

/-- The block never delivers novelty Malformed: a step that changes the mailbox's code, or sets READY, delivers a New or a
Repeat, which is the code then stored (spec/44_nec_fsa.md R219). -/
def Obligations.MalformedIsNeverDelivered : Prop :=
  ∀ s t : State, step s = .next t → t.mbx.code ≠ s.mbx.code ∨ (s.mbx.ready = false ∧ t.mbx.ready = true) →
    t.mbx.ready = true ∧ (t.mbx.code.nov = .new ∨ t.mbx.code.nov = .repeated) ∧ t.mbx.code = t.fsa.stored

/-- BITS and SHIFT change only in a step that enters MessageBody or that consumes a pulse in MessageBody
(spec/10_state.md R54 (e)). -/
def Obligations.ShiftRegisterChangesOnlyInMessageBody : Prop :=
  ∀ s t : State, step s = .next t → t.fsa.bits ≠ s.fsa.bits ∨ t.fsa.shift ≠ s.fsa.shift →
    (s.fsa.state = .leadingPulse ∧ t.fsa.state = .messageBody ∧ t.fsa.bits = 0 ∧ t.fsa.shift = 0) ∨
    (s.fsa.state = .messageBody ∧ t.last.pcount = s.last.pcount + 1)

/-! ## NEC Reader -/

/-- Address acceptance: Exact and Bitmask accept exactly the device address, ReverseBitmask accepts every address that holds
its bits, Ignore accepts every address; the mode codes are 0 to 3 in that order, every code above 3 is Ignore, and of the
repeat policies 1 respects repeats and 0 does not (spec/45_reader.md R241, R242, R243). -/
def Obligations.AddressAcceptance : Prop :=
  (∀ r d : BitVec 16,
    (accept .exactMatch r d = true ↔ r = d) ∧ (accept .bitmask r d = true ↔ r = d) ∧
    (accept .reverseBitmask r d = true ↔ ∀ j : Nat, d.getLsbD j = true → r.getLsbD j = true) ∧
    accept .ignore r d = true) ∧
  AddressMode.ofCode 0 = .exactMatch ∧ AddressMode.ofCode 1 = .bitmask ∧ AddressMode.ofCode 2 = .reverseBitmask ∧
  AddressMode.ofCode 3 = .ignore ∧ (∀ n, 3 < n → AddressMode.ofCode n = .ignore) ∧
  respectOfPolicy 0 = false ∧ respectOfPolicy 1 = true

/-- One poll of a waiting reader reads MBX_CODE, which clears READY, and returns the command byte exactly when a code was
ready, its novelty is accepted and its address is accepted; else it waits on with the same configuration
(spec/45_reader.md R244). -/
def Obligations.ReaderPollFollowsRead : Prop :=
  ∀ (s : State) (c : ReaderConfig), s.reader = .waiting c →
    perform .readerPoll s =
      .next
        { s with
          hostData := some (peek s .mbxCode)
          mbx := { s.mbx with ready := false }
          reader :=
            if s.mbx.ready = true ∧
                (s.mbx.code.nov = .new ∨ (s.mbx.code.nov = .repeated ∧ c.respectRepeats = true)) ∧
                accept c.mode s.mbx.code.addr c.deviceAddress = true
            then .returned s.mbx.code.cmd else .waiting c }

/-- The configuration of an open reader is immutable: while the reader waits, a step leaves it waiting with the same
configuration or, at a poll, returned (spec/45_reader.md R240). That a second call while it waits is passed over is the
model's (notes/assumptions/10.md). -/
def Obligations.ReaderKeepsItsConfiguration : Prop :=
  ∀ (s t : State) (c : ReaderConfig), s.reader = .waiting c → step s = .next t →
    t.reader = .waiting c ∨
      (s.pending.head? = some .readerPoll ∧ ∃ cmd, t.reader = .returned cmd ∧ consume c (peek s .mbxCode) = some cmd)
end

