-- ==== Sys2Proof/Laws/Bits.lean ====
section
/-! SUPPORT. Fields of words as numbers: appending is multiplication and addition, extracting is division and remainder. -/

namespace Sys2Proof

/-- An append as a number. -/
theorem append_toNat {m n : Nat} (x : BitVec m) (y : BitVec n) : (x ++ y).toNat = x.toNat * 2 ^ n + y.toNat := by
  rw [BitVec.toNat_append, ← Nat.shiftLeft_add_eq_or_of_lt y.isLt, Nat.shiftLeft_eq]

/-- OP as a number. -/
theorem opField_toNat (w : Word) : (opField w).toNat = w.toNat / 2 ^ 28 := by
  have := w.isLt
  simp only [opField, BitVec.extractLsb'_toNat, Nat.shiftRight_eq_div_pow]
  exact Nat.mod_eq_of_lt (by omega)

/-- The top of ARG from a bit on, as a number. -/
theorem argFrom_eq (w : Word) (k : Nat) : argFrom w k = w.toNat % 2 ^ 28 / 2 ^ k := by
  simp [argFrom, argField, BitVec.extractLsb'_toNat]

/-- A bit as a number. -/
theorem getLsbD_eq {n : Nat} (w : BitVec n) (k : Nat) : w.getLsbD k = decide (w.toNat / 2 ^ k % 2 = 1) := by
  simp [BitVec.getLsbD, Nat.testBit_eq_decide_div_mod_eq]

/-- The shift of R84 as a number. -/
theorem ushiftRight28_toNat (w : Word) : (w >>> 28).toNat = w.toNat / 2 ^ 28 := by
  simp [BitVec.toNat_ushiftRight, Nat.shiftRight_eq_div_pow]

@[simp] theorem ofBool_toNat (b : Bool) : (BitVec.ofBool b).toNat = b.toNat := by cases b <;> rfl

/-- A one-bit number is the bit it was read from. -/
theorem bit_toNat {n : Nat} (w : BitVec n) (k : Nat) : (w.getLsbD k).toNat = w.toNat / 2 ^ k % 2 := by
  rw [getLsbD_eq]
  have := Nat.mod_lt (w.toNat / 2 ^ k) (show 0 < 2 by decide)
  by_cases h : w.toNat / 2 ^ k % 2 = 1
  · simp [h]
  · simp only [h, decide_false, Bool.toNat_false]; omega

/-- The low bits that a mask of ones keeps. -/
theorem and_ones_toNat (w : Word) (k : Nat) (hk : k ≤ 32) : (w &&& BitVec.ofNat 32 (2 ^ k - 1)).toNat = w.toNat % 2 ^ k := by
  have h : 2 ^ k - 1 < 2 ^ 32 := by
    have := Nat.pow_le_pow_right (show 0 < 2 by decide) hk
    have := Nat.two_pow_pos k
    omega
  rw [BitVec.toNat_and, BitVec.toNat_ofNat, Nat.mod_eq_of_lt h, Nat.and_two_pow_sub_one_eq_mod]

/-- A word is the four bytes it is stored as (spec/20_memory.md R61). -/
theorem wordOfBytes_bytes (w : Word) :
    wordOfBytes (byteOfWord w 0) (byteOfWord w 1) (byteOfWord w 2) (byteOfWord w 3) = w := by
  apply BitVec.eq_of_toNat_eq
  have := w.isLt
  simp only [wordOfBytes, append_toNat, byteOfWord, BitVec.extractLsb'_toNat, Nat.shiftRight_eq_div_pow]
  omega

end Sys2Proof
end

