-- ==== Sys2Proof/Laws/Fsa.lean ====
section
/-! SUPPORT. The NEC FSA: what one pulse can do, and that it keeps the invariants of the FSA and the mailbox. -/

namespace Sys2Proof.Machine

variable (h : Shapes) (p : Pulse) (f : Fsa) (m : Mailbox)

@[simp] theorem deliver_code (c : Code) : (deliver c m).code = c := rfl
@[simp] theorem deliver_ready (c : Code) : (deliver c m).ready = true := rfl
@[simp] theorem enterMalformed_state : (enterMalformed f).state = .malformed := rfl
@[simp] theorem enterMalformed_bits : (enterMalformed f).bits = f.bits := rfl
@[simp] theorem enterMalformed_shift : (enterMalformed f).shift = f.shift := rfl
@[simp] theorem enterMalformed_nov : (enterMalformed f).stored.nov = .malformed := rfl
@[simp] theorem suppress_iff : f.suppress = true ↔ f.stored.nov = .malformed := by simp [Fsa.suppress]

/-- The shift register after a new bit, as a number. -/
theorem shifted_toNat (b : Bool) : (shifted f b).toNat = (2 * f.shift.toNat + b.toNat) % 2 ^ 32 := by
  have hs := f.shift.isLt
  rw [shifted, BitVec.toNat_or]
  have h1 : (f.shift <<< 1).toNat = 2 ^ 1 * (f.shift.toNat % 2 ^ 31) := by
    rw [BitVec.toNat_shiftLeft, Nat.shiftLeft_eq]; omega
  have h2 : ((BitVec.ofBool b).setWidth 32 : Word).toNat = b.toNat := by cases b <;> rfl
  have h3 : b.toNat < 2 ^ 1 := by cases b <;> decide
  rw [h1, h2, ← Nat.two_pow_add_eq_or_of_lt h3]
  omega

/-- In every case of `fsa_step`: the FSA consumes the pulse, clears the register on LEAD, takes the repeat path, becomes
Malformed, shifts a bit in, or completes a code. -/
theorem fsaStep_cases :
    (fsaStep h p f m = ({ f with state := .leadingPulse }, m) ∧ (f.state = .idle ∨ f.state = .malformed)) ∨
    (fsaStep h p f m = ({ f with state := .messageBody, shift := 0, bits := 0 }, m) ∧ f.state = .leadingPulse) ∨
    (fsaStep h p f m = repeatPath f m ∧ f.state = .leadingPulse) ∨
    (fsaStep h p f m = (enterMalformed f, m) ∧ (f.state = .leadingPulse ∨ f.state = .messageBody)) ∨
    (∃ b, f.bits.toNat + 1 < 32 ∧ f.state = .messageBody ∧
      fsaStep h p f m = ({ f with shift := shifted f b, bits := BitVec.ofNat 6 (f.bits.toNat + 1) }, m)) ∨
    (∃ b, ¬ f.bits.toNat + 1 < 32 ∧ f.state = .messageBody ∧ fsaStep h p f m = complete (shifted f b) f m) := by
  unfold fsaStep
  cases hst : f.state with
  | idle => simp
  | malformed => simp
  | leadingPulse =>
    simp only [leadingStep]
    split
    · simp
    · split <;> simp
  | messageBody =>
    simp only [bodyStep, shiftIn]
    split
    · split
      · next hb => exact .inr (.inr (.inr (.inr (.inl ⟨true, hb, trivial, by rw [hst]⟩))))
      · next hb => exact .inr (.inr (.inr (.inr (.inr ⟨true, hb, trivial, rfl⟩))))
    · split
      · split
        · next hb => exact .inr (.inr (.inr (.inr (.inl ⟨false, hb, trivial, by rw [hst]⟩))))
        · next hb => exact .inr (.inr (.inr (.inr (.inr ⟨false, hb, trivial, rfl⟩))))
      · simp

/-- A pulse leaves the mailbox as it was, or delivers the code then stored, which is New or Repeat. -/
theorem fsaStep_mailbox :
    (fsaStep h p f m).2 = m ∨
      ((fsaStep h p f m).2 = deliver (fsaStep h p f m).1.stored m ∧
        ((fsaStep h p f m).1.stored.nov = .new ∨ (fsaStep h p f m).1.stored.nov = .repeated)) := by
  obtain ⟨e, -⟩ | ⟨e, -⟩ | ⟨e, -⟩ | ⟨e, -⟩ | ⟨b, -, -, e⟩ | ⟨b, -, -, e⟩ := fsaStep_cases h p f m <;> rw [e]
  · simp
  · simp
  · unfold repeatPath; split <;> simp
  · simp
  · simp
  · unfold complete; dsimp only; split <;> simp

/-- A pulse keeps the mailbox's invariant. -/
theorem fsaStep_mailbox_inv (hm : m.Inv) : (fsaStep h p f m).2.Inv := by
  obtain e | ⟨e, hn⟩ := fsaStep_mailbox h p f m
  · rwa [e]
  · rw [e]
    intro _
    obtain hn | hn := hn <;> simp [hn]

/-- A pulse keeps the FSA's invariant. -/
theorem fsaStep_inv (hf : f.Inv) : (fsaStep h p f m).1.Inv := by
  have hbits := hf.bitsAtMost
  have hshift := hf.shiftFits
  obtain ⟨e, -⟩ | ⟨e, -⟩ | ⟨e, -⟩ | ⟨e, -⟩ | ⟨b, hb, hst, e⟩ | ⟨b, -, -, e⟩ := fsaStep_cases h p f m <;> rw [e]
  · exact ⟨hbits, hshift, by simp⟩
  · exact ⟨by simp, by simp, by simp⟩
  · unfold repeatPath
    split
    · exact ⟨hbits, hshift, by simp⟩
    · exact ⟨hbits, hshift, by simp⟩
  · exact ⟨hbits, hshift, by simp⟩
  · have h1 : (BitVec.ofNat 6 (f.bits.toNat + 1)).toNat = f.bits.toNat + 1 := by
      rw [BitVec.toNat_ofNat]; omega
    refine ⟨by simp only [h1]; omega, ?_, by simp [hst]⟩
    simp only [h1]
    rw [shifted_toNat]
    have h2 : b.toNat ≤ 1 := by cases b <;> decide
    have h3 := Nat.mod_le (2 * f.shift.toNat + b.toNat) (2 ^ 32)
    rw [Nat.pow_succ]
    omega
  · unfold complete
    dsimp only
    split
    · exact ⟨by simp, by simp, by simp⟩
    · exact ⟨by simp, by simp, by simp⟩

/-- A sequence of pulses in two parts. -/
theorem fsaRun_append (ps qs : List Pulse) :
    fsaRun h (ps ++ qs) f m = fsaRun h qs (fsaRun h ps f m).1 (fsaRun h ps f m).2 := by
  induction ps generalizing f m with
  | nil => rfl
  | cons p ps ih => simp [fsaRun, ih]

/-- In LeadingPulse noise is Malformed. -/
theorem fsaStep_noise (hf : f.state = .leadingPulse) (hp : isNoise h p = true) :
    fsaStep h p f m = (enterMalformed f, m) := by
  simp only [isNoise, Bool.and_eq_true, Bool.not_eq_true'] at hp
  simp [fsaStep, hf, leadingStep, hp]

/-- In MessageBody a pulse that is read as a bit is shifted in. -/
theorem fsaStep_bit (hf : f.state = .messageBody) {b : Bool} (hb : bitOf h p = some b) :
    fsaStep h p f m = shiftIn b f m := by
  unfold bitOf at hb
  simp only [fsaStep, hf, bodyStep]
  split at hb
  · next h1 => rw [if_pos h1]; injection hb with hb; rw [hb]
  · next h1 =>
    split at hb
    · next h0 => rw [if_neg h1, if_pos h0]; injection hb with hb; rw [hb]
    · exact absurd hb (by simp)

end Sys2Proof.Machine
end

