-- ==== Sys2Proof/Laws/State.lean ====
section
/-! SUPPORT. One lemma per field per update of the state: what each of the eleven component updates of Machine/Ops.lean leaves
in each field. -/

namespace Sys2Proof.Machine

variable (s : State)

section setResult
variable (v : Status)
@[simp] theorem State.setResult_params : (s.setResult v).params = s.params := rfl
@[simp] theorem State.setResult_result : (s.setResult v).result = v := rfl
@[simp] theorem State.setResult_clock : (s.setResult v).clock = s.clock := rfl
@[simp] theorem State.setResult_cap : (s.setResult v).cap = s.cap := rfl
@[simp] theorem State.setResult_last : (s.setResult v).last = s.last := rfl
@[simp] theorem State.setResult_shapes : (s.setResult v).shapes = s.shapes := rfl
@[simp] theorem State.setResult_fsa : (s.setResult v).fsa = s.fsa := rfl
@[simp] theorem State.setResult_mbx : (s.setResult v).mbx = s.mbx := rfl
@[simp] theorem State.setResult_tx : (s.setResult v).tx = s.tx := rfl
@[simp] theorem State.setResult_hostData : (s.setResult v).hostData = s.hostData := rfl
@[simp] theorem State.setResult_reader : (s.setResult v).reader = s.reader := rfl
@[simp] theorem State.setResult_pending : (s.setResult v).pending = s.pending := rfl
end setResult

section setClock
variable (v : Clock)
@[simp] theorem State.setClock_params : (s.setClock v).params = s.params := rfl
@[simp] theorem State.setClock_result : (s.setClock v).result = s.result := rfl
@[simp] theorem State.setClock_clock : (s.setClock v).clock = v := rfl
@[simp] theorem State.setClock_cap : (s.setClock v).cap = s.cap := rfl
@[simp] theorem State.setClock_last : (s.setClock v).last = s.last := rfl
@[simp] theorem State.setClock_shapes : (s.setClock v).shapes = s.shapes := rfl
@[simp] theorem State.setClock_fsa : (s.setClock v).fsa = s.fsa := rfl
@[simp] theorem State.setClock_mbx : (s.setClock v).mbx = s.mbx := rfl
@[simp] theorem State.setClock_tx : (s.setClock v).tx = s.tx := rfl
@[simp] theorem State.setClock_hostData : (s.setClock v).hostData = s.hostData := rfl
@[simp] theorem State.setClock_reader : (s.setClock v).reader = s.reader := rfl
@[simp] theorem State.setClock_pending : (s.setClock v).pending = s.pending := rfl
end setClock

section setCap
variable (v : Capture)
@[simp] theorem State.setCap_params : (s.setCap v).params = s.params := rfl
@[simp] theorem State.setCap_result : (s.setCap v).result = s.result := rfl
@[simp] theorem State.setCap_clock : (s.setCap v).clock = s.clock := rfl
@[simp] theorem State.setCap_cap : (s.setCap v).cap = v := rfl
@[simp] theorem State.setCap_last : (s.setCap v).last = s.last := rfl
@[simp] theorem State.setCap_shapes : (s.setCap v).shapes = s.shapes := rfl
@[simp] theorem State.setCap_fsa : (s.setCap v).fsa = s.fsa := rfl
@[simp] theorem State.setCap_mbx : (s.setCap v).mbx = s.mbx := rfl
@[simp] theorem State.setCap_tx : (s.setCap v).tx = s.tx := rfl
@[simp] theorem State.setCap_hostData : (s.setCap v).hostData = s.hostData := rfl
@[simp] theorem State.setCap_reader : (s.setCap v).reader = s.reader := rfl
@[simp] theorem State.setCap_pending : (s.setCap v).pending = s.pending := rfl
end setCap

section setLast
variable (v : LastPulse)
@[simp] theorem State.setLast_params : (s.setLast v).params = s.params := rfl
@[simp] theorem State.setLast_result : (s.setLast v).result = s.result := rfl
@[simp] theorem State.setLast_clock : (s.setLast v).clock = s.clock := rfl
@[simp] theorem State.setLast_cap : (s.setLast v).cap = s.cap := rfl
@[simp] theorem State.setLast_last : (s.setLast v).last = v := rfl
@[simp] theorem State.setLast_shapes : (s.setLast v).shapes = s.shapes := rfl
@[simp] theorem State.setLast_fsa : (s.setLast v).fsa = s.fsa := rfl
@[simp] theorem State.setLast_mbx : (s.setLast v).mbx = s.mbx := rfl
@[simp] theorem State.setLast_tx : (s.setLast v).tx = s.tx := rfl
@[simp] theorem State.setLast_hostData : (s.setLast v).hostData = s.hostData := rfl
@[simp] theorem State.setLast_reader : (s.setLast v).reader = s.reader := rfl
@[simp] theorem State.setLast_pending : (s.setLast v).pending = s.pending := rfl
end setLast

section setShapes
variable (v : Shapes)
@[simp] theorem State.setShapes_params : (s.setShapes v).params = s.params := rfl
@[simp] theorem State.setShapes_result : (s.setShapes v).result = s.result := rfl
@[simp] theorem State.setShapes_clock : (s.setShapes v).clock = s.clock := rfl
@[simp] theorem State.setShapes_cap : (s.setShapes v).cap = s.cap := rfl
@[simp] theorem State.setShapes_last : (s.setShapes v).last = s.last := rfl
@[simp] theorem State.setShapes_shapes : (s.setShapes v).shapes = v := rfl
@[simp] theorem State.setShapes_fsa : (s.setShapes v).fsa = s.fsa := rfl
@[simp] theorem State.setShapes_mbx : (s.setShapes v).mbx = s.mbx := rfl
@[simp] theorem State.setShapes_tx : (s.setShapes v).tx = s.tx := rfl
@[simp] theorem State.setShapes_hostData : (s.setShapes v).hostData = s.hostData := rfl
@[simp] theorem State.setShapes_reader : (s.setShapes v).reader = s.reader := rfl
@[simp] theorem State.setShapes_pending : (s.setShapes v).pending = s.pending := rfl
end setShapes

section setFsa
variable (v : Fsa)
@[simp] theorem State.setFsa_params : (s.setFsa v).params = s.params := rfl
@[simp] theorem State.setFsa_result : (s.setFsa v).result = s.result := rfl
@[simp] theorem State.setFsa_clock : (s.setFsa v).clock = s.clock := rfl
@[simp] theorem State.setFsa_cap : (s.setFsa v).cap = s.cap := rfl
@[simp] theorem State.setFsa_last : (s.setFsa v).last = s.last := rfl
@[simp] theorem State.setFsa_shapes : (s.setFsa v).shapes = s.shapes := rfl
@[simp] theorem State.setFsa_fsa : (s.setFsa v).fsa = v := rfl
@[simp] theorem State.setFsa_mbx : (s.setFsa v).mbx = s.mbx := rfl
@[simp] theorem State.setFsa_tx : (s.setFsa v).tx = s.tx := rfl
@[simp] theorem State.setFsa_hostData : (s.setFsa v).hostData = s.hostData := rfl
@[simp] theorem State.setFsa_reader : (s.setFsa v).reader = s.reader := rfl
@[simp] theorem State.setFsa_pending : (s.setFsa v).pending = s.pending := rfl
end setFsa

section setMbx
variable (v : Mailbox)
@[simp] theorem State.setMbx_params : (s.setMbx v).params = s.params := rfl
@[simp] theorem State.setMbx_result : (s.setMbx v).result = s.result := rfl
@[simp] theorem State.setMbx_clock : (s.setMbx v).clock = s.clock := rfl
@[simp] theorem State.setMbx_cap : (s.setMbx v).cap = s.cap := rfl
@[simp] theorem State.setMbx_last : (s.setMbx v).last = s.last := rfl
@[simp] theorem State.setMbx_shapes : (s.setMbx v).shapes = s.shapes := rfl
@[simp] theorem State.setMbx_fsa : (s.setMbx v).fsa = s.fsa := rfl
@[simp] theorem State.setMbx_mbx : (s.setMbx v).mbx = v := rfl
@[simp] theorem State.setMbx_tx : (s.setMbx v).tx = s.tx := rfl
@[simp] theorem State.setMbx_hostData : (s.setMbx v).hostData = s.hostData := rfl
@[simp] theorem State.setMbx_reader : (s.setMbx v).reader = s.reader := rfl
@[simp] theorem State.setMbx_pending : (s.setMbx v).pending = s.pending := rfl
end setMbx

section setTx
variable (v : Tx)
@[simp] theorem State.setTx_params : (s.setTx v).params = s.params := rfl
@[simp] theorem State.setTx_result : (s.setTx v).result = s.result := rfl
@[simp] theorem State.setTx_clock : (s.setTx v).clock = s.clock := rfl
@[simp] theorem State.setTx_cap : (s.setTx v).cap = s.cap := rfl
@[simp] theorem State.setTx_last : (s.setTx v).last = s.last := rfl
@[simp] theorem State.setTx_shapes : (s.setTx v).shapes = s.shapes := rfl
@[simp] theorem State.setTx_fsa : (s.setTx v).fsa = s.fsa := rfl
@[simp] theorem State.setTx_mbx : (s.setTx v).mbx = s.mbx := rfl
@[simp] theorem State.setTx_tx : (s.setTx v).tx = v := rfl
@[simp] theorem State.setTx_hostData : (s.setTx v).hostData = s.hostData := rfl
@[simp] theorem State.setTx_reader : (s.setTx v).reader = s.reader := rfl
@[simp] theorem State.setTx_pending : (s.setTx v).pending = s.pending := rfl
end setTx

section setHostData
variable (v : Word)
@[simp] theorem State.setHostData_params : (s.setHostData v).params = s.params := rfl
@[simp] theorem State.setHostData_result : (s.setHostData v).result = s.result := rfl
@[simp] theorem State.setHostData_clock : (s.setHostData v).clock = s.clock := rfl
@[simp] theorem State.setHostData_cap : (s.setHostData v).cap = s.cap := rfl
@[simp] theorem State.setHostData_last : (s.setHostData v).last = s.last := rfl
@[simp] theorem State.setHostData_shapes : (s.setHostData v).shapes = s.shapes := rfl
@[simp] theorem State.setHostData_fsa : (s.setHostData v).fsa = s.fsa := rfl
@[simp] theorem State.setHostData_mbx : (s.setHostData v).mbx = s.mbx := rfl
@[simp] theorem State.setHostData_tx : (s.setHostData v).tx = s.tx := rfl
@[simp] theorem State.setHostData_hostData : (s.setHostData v).hostData = some v := rfl
@[simp] theorem State.setHostData_reader : (s.setHostData v).reader = s.reader := rfl
@[simp] theorem State.setHostData_pending : (s.setHostData v).pending = s.pending := rfl
end setHostData

section setReader
variable (v : Reader)
@[simp] theorem State.setReader_params : (s.setReader v).params = s.params := rfl
@[simp] theorem State.setReader_result : (s.setReader v).result = s.result := rfl
@[simp] theorem State.setReader_clock : (s.setReader v).clock = s.clock := rfl
@[simp] theorem State.setReader_cap : (s.setReader v).cap = s.cap := rfl
@[simp] theorem State.setReader_last : (s.setReader v).last = s.last := rfl
@[simp] theorem State.setReader_shapes : (s.setReader v).shapes = s.shapes := rfl
@[simp] theorem State.setReader_fsa : (s.setReader v).fsa = s.fsa := rfl
@[simp] theorem State.setReader_mbx : (s.setReader v).mbx = s.mbx := rfl
@[simp] theorem State.setReader_tx : (s.setReader v).tx = s.tx := rfl
@[simp] theorem State.setReader_hostData : (s.setReader v).hostData = s.hostData := rfl
@[simp] theorem State.setReader_reader : (s.setReader v).reader = v := rfl
@[simp] theorem State.setReader_pending : (s.setReader v).pending = s.pending := rfl
end setReader

section setPending
variable (v : List Stimulus)
@[simp] theorem State.setPending_params : (s.setPending v).params = s.params := rfl
@[simp] theorem State.setPending_result : (s.setPending v).result = s.result := rfl
@[simp] theorem State.setPending_clock : (s.setPending v).clock = s.clock := rfl
@[simp] theorem State.setPending_cap : (s.setPending v).cap = s.cap := rfl
@[simp] theorem State.setPending_last : (s.setPending v).last = s.last := rfl
@[simp] theorem State.setPending_shapes : (s.setPending v).shapes = s.shapes := rfl
@[simp] theorem State.setPending_fsa : (s.setPending v).fsa = s.fsa := rfl
@[simp] theorem State.setPending_mbx : (s.setPending v).mbx = s.mbx := rfl
@[simp] theorem State.setPending_tx : (s.setPending v).tx = s.tx := rfl
@[simp] theorem State.setPending_hostData : (s.setPending v).hostData = s.hostData := rfl
@[simp] theorem State.setPending_reader : (s.setPending v).reader = s.reader := rfl
@[simp] theorem State.setPending_pending : (s.setPending v).pending = v := rfl
end setPending

end Sys2Proof.Machine
end

