-- ==== Sys2Proof/Laws/Words.lean ====
section
/-! SUPPORT. W-bit values: what `wrap`, `lowW` and `overflow` hold, and the laws of the register numbers. -/

namespace Sys2Proof.Machine

theorem modulus_pos (p : Params) : 0 < modulus p := by unfold modulus; positivity

/-- W is at most 16, so a W-bit value fits the 16 bits that hold it. -/
theorem modulus_le {p : Params} (h : p.Valid) : modulus p ≤ 2 ^ 16 :=
  Nat.pow_le_pow_right (by decide) h.2.1

/-- W is at least 8. -/
theorem modulus_ge {p : Params} (h : p.Valid) : 2 ^ 8 ≤ modulus p :=
  Nat.pow_le_pow_right (by decide) h.1

/-- `wrap` is the remainder modulo `2^W`. -/
theorem wrap_toNat {p : Params} (h : p.Valid) (n : Nat) : (wrap p n).toNat = n % modulus p := by
  have h1 := Nat.mod_lt n (modulus_pos p)
  have h2 := modulus_le h
  simp only [wrap, BitVec.toNat_ofNat]
  exact Nat.mod_eq_of_lt (by omega)

theorem wrap_fits {p : Params} (h : p.Valid) (n : Nat) : (wrap p n).toNat < modulus p := by
  rw [wrap_toNat h]; exact Nat.mod_lt _ (modulus_pos p)

theorem lowW_fits {p : Params} (h : p.Valid) (v : Half) : (lowW p v).toNat < modulus p := wrap_fits h _

/-- A W-bit value is its own low W bits. -/
theorem lowW_of_fits {p : Params} (h : p.Valid) {v : Half} (hv : v.toNat < modulus p) : lowW p v = v := by
  apply BitVec.eq_of_toNat_eq
  rw [lowW, wrap_toNat h, Nat.mod_eq_of_lt hv]

theorem overflow_toNat {p : Params} (h : p.Valid) : (overflow p).toNat = modulus p - 1 := by
  have h1 := modulus_pos p
  have h2 := modulus_le h
  simp only [overflow, BitVec.toNat_ofNat]
  exact Nat.mod_eq_of_lt (by omega)

theorem overflow_fits {p : Params} (h : p.Valid) : (overflow p).toNat < modulus p := by
  have h1 := modulus_pos p
  rw [overflow_toNat h]; omega

/-- `EdgeType.ofBit` and `EdgeType.toBit` are inverse. -/
@[simp] theorem ofBit_toBit (t : EdgeType) : EdgeType.ofBit t.toBit = t := by cases t <;> rfl

@[simp] theorem toBit_ofBit (b : Bool) : (EdgeType.ofBit b).toBit = b := by cases b <;> rfl

/-- An aligned 4-byte access at word index `k` of the window reaches the register at that index. -/
theorem classify_word {p : Params} (hb : p.base % 4 = 0) {k : Nat} (hk : k < 32) :
    classify p .word (p.base + 4 * k) = .register (regAt k) := by
  have h1 : p.base + 4 * k < p.base + 128 ∧ p.base < p.base + 4 * k + 4 := by omega
  have h2 : (p.base + 4 * k) % 4 = 0 := by omega
  simp [classify, Width.bytes, h1, h2]

/-- With a valid BASE, the only access that reaches CMD is the aligned word access at BASE. -/
theorem classify_cmd {p : Params} (hb : p.base % 4 = 0) {w : Width} {addr : Nat}
    (h : classify p w addr = .register .cmd) : w = .word ∧ addr = p.base := by
  unfold classify at h
  split at h
  · rename_i hin
    cases w with
    | byte => simp at h
    | half => simp at h
    | word =>
      simp only [Width.bytes] at hin h
      split at h
      · rename_i hal
        have hreg : regAt ((addr - p.base) / 4) = .cmd := by simpa using h
        have hz : (addr - p.base) / 4 = 0 := by
          generalize (addr - p.base) / 4 = k at hreg
          unfold regAt at hreg
          split at hreg <;> first | rfl | exact absurd hreg (by decide)
        exact ⟨rfl, by omega⟩
      · simp at h
  · simp at h

/-- The mailbox word as a number: READY [31], NOV [25:24], CMD [23:16], ADDR [15:0]. -/
theorem mailboxWord_toNat (m : Mailbox) :
    (mailboxWord m).toNat =
      2147483648 * m.ready.toNat + 16777216 * m.code.nov.toBits.toNat + 65536 * m.code.cmd.toNat
        + m.code.addr.toNat := by
  rw [mailboxWord, append_toNat, append_toNat, append_toNat, append_toNat, ofBool_toNat, BitVec.toNat_ofNat]
  omega

/-- The fields that the reader takes out of the mailbox word. -/
theorem mailboxWord_fields (m : Mailbox) :
    (mailboxWord m).getLsbD 31 = m.ready ∧ (mailboxWord m).extractLsb' 24 2 = m.code.nov.toBits ∧
      (mailboxWord m).extractLsb' 16 8 = m.code.cmd ∧ (mailboxWord m).extractLsb' 0 16 = m.code.addr := by
  have hn := mailboxWord_toNat m
  have h1 := m.code.nov.toBits.isLt
  have h2 := m.code.cmd.isLt
  have h3 := m.code.addr.isLt
  have h4 : m.ready.toNat ≤ 1 := by cases m.ready <;> decide
  refine ⟨?_, ?_, ?_, ?_⟩
  · rw [getLsbD_eq, hn]
    cases hr : m.ready <;> simp only [hr, Bool.toNat_true, Bool.toNat_false] at * <;> simp <;> omega
  all_goals
    apply BitVec.eq_of_toNat_eq
    rw [BitVec.extractLsb'_toNat, hn, Nat.shiftRight_eq_div_pow]
    omega

end Sys2Proof.Machine
end

