-- ==== Sys2Proof/Laws/Capture.lean ====
section
/-! SUPPORT. Pulse capture: what an emission, an edge and the capture part of a TICK can do. -/

namespace Sys2Proof.Machine

variable (p : Pulse) (s : State)

@[simp] theorem emit_params : (emit p s).params = s.params := rfl
@[simp] theorem emit_result : (emit p s).result = s.result := rfl
@[simp] theorem emit_clock : (emit p s).clock = s.clock := rfl
@[simp] theorem emit_cap : (emit p s).cap = s.cap := rfl
@[simp] theorem emit_last : (emit p s).last = { pulse := p, valid := true, pcount := s.last.pcount + 1 } := rfl
@[simp] theorem emit_shapes : (emit p s).shapes = s.shapes := rfl
@[simp] theorem emit_fsa : (emit p s).fsa = (fsaStep s.shapes p s.fsa s.mbx).1 := rfl
@[simp] theorem emit_mbx : (emit p s).mbx = (fsaStep s.shapes p s.fsa s.mbx).2 := rfl
@[simp] theorem emit_tx : (emit p s).tx = s.tx := rfl
@[simp] theorem emit_hostData : (emit p s).hostData = s.hostData := rfl
@[simp] theorem emit_reader : (emit p s).reader = s.reader := rfl
@[simp] theorem emit_pending : (emit p s).pending = s.pending := rfl

/-- What an edge or the capture part of a TICK is: a change of the capture fields, with or without an emission. -/
theorem captureEdge_cases (v : Level) :
    (∃ c, captureEdge v s = s.setCap c) ∨
    (∃ c, s.cap.phase = .second ∧
      captureEdge v s = emit { first := s.cap.first, second := s.cap.count, type := s.cap.edgeType } (s.setCap c)) := by
  unfold captureEdge
  cases h : s.cap.phase with
  | off => exact .inl ⟨s.cap, rfl⟩
  | waitStart =>
    left
    simp only [edgeWaitStart]
    split
    · exact ⟨_, rfl⟩
    · exact ⟨s.cap, rfl⟩
  | first => exact .inl ⟨_, rfl⟩
  | second => exact .inr ⟨_, rfl, rfl⟩

/-- The capture part of a TICK in each case: no overflow, an overflow with no half pending, and an overflow that closes the
first or the second half. -/
theorem tickCapture_cases :
    let c := { s.cap with count := wrap s.params (s.cap.count.toNat + 1) }
    (tickCapture s = s.setCap c ∧
      (s.cap.count.toNat ≠ modulus s.params - 1 ∨ s.cap.phase.halfPending = false)) ∨
    (s.cap.phase = .first ∧ s.cap.count.toNat = modulus s.params - 1 ∧
      tickCapture s = emit { first := overflow s.params, second := overflow s.params, type := s.cap.edgeType }
        (s.setCap { c with phase := .waitStart })) ∨
    (s.cap.phase = .second ∧ s.cap.count.toNat = modulus s.params - 1 ∧
      tickCapture s = emit { first := s.cap.first, second := overflow s.params, type := s.cap.edgeType }
        (s.setCap { c with phase := .waitStart })) := by
  intro c
  unfold tickCapture
  dsimp only
  split
  · next hc =>
    cases h : s.cap.phase with
    | off => left; simp [captureOverflow, h, c, Phase.halfPending]
    | waitStart => left; simp [captureOverflow, h, c, Phase.halfPending]
    | first => right; left; simp only [captureOverflow, State.setCap_cap]; exact ⟨trivial, hc, rfl⟩
    | second => right; right; simp only [captureOverflow, State.setCap_cap]; exact ⟨trivial, hc, rfl⟩
  · next hc => exact .inl ⟨rfl, .inl hc⟩

@[simp] theorem tickCapture_params : (tickCapture s).params = s.params := by
  obtain ⟨e, -⟩ | ⟨-, -, e⟩ | ⟨-, -, e⟩ := tickCapture_cases s <;> rw [e] <;> rfl
@[simp] theorem tickCapture_result : (tickCapture s).result = s.result := by
  obtain ⟨e, -⟩ | ⟨-, -, e⟩ | ⟨-, -, e⟩ := tickCapture_cases s <;> rw [e] <;> rfl
@[simp] theorem tickCapture_clock : (tickCapture s).clock = s.clock := by
  obtain ⟨e, -⟩ | ⟨-, -, e⟩ | ⟨-, -, e⟩ := tickCapture_cases s <;> rw [e] <;> rfl
@[simp] theorem tickCapture_shapes : (tickCapture s).shapes = s.shapes := by
  obtain ⟨e, -⟩ | ⟨-, -, e⟩ | ⟨-, -, e⟩ := tickCapture_cases s <;> rw [e] <;> rfl
@[simp] theorem tickCapture_tx : (tickCapture s).tx = s.tx := by
  obtain ⟨e, -⟩ | ⟨-, -, e⟩ | ⟨-, -, e⟩ := tickCapture_cases s <;> rw [e] <;> rfl
@[simp] theorem tickCapture_hostData : (tickCapture s).hostData = s.hostData := by
  obtain ⟨e, -⟩ | ⟨-, -, e⟩ | ⟨-, -, e⟩ := tickCapture_cases s <;> rw [e] <;> rfl
@[simp] theorem tickCapture_reader : (tickCapture s).reader = s.reader := by
  obtain ⟨e, -⟩ | ⟨-, -, e⟩ | ⟨-, -, e⟩ := tickCapture_cases s <;> rw [e] <;> rfl
@[simp] theorem tickCapture_pending : (tickCapture s).pending = s.pending := by
  obtain ⟨e, -⟩ | ⟨-, -, e⟩ | ⟨-, -, e⟩ := tickCapture_cases s <;> rw [e] <;> rfl

/-- A TICK with the clock set is its capture part and its transmit part. -/
theorem execTick_eq {s : State} (h : s.clock.clkSet = true) :
    execTick s = .next ((tickCapture s).setTx (tickTx s.params s.tx)) := by
  simp [execTick, h, tickBoth]

/-- A capture part with no wrap only counts. -/
theorem tickCapture_of_no_wrap {s : State} (h : s.cap.count.toNat ≠ modulus s.params - 1) :
    tickCapture s = s.setCap { s.cap with count := wrap s.params (s.cap.count.toNat + 1) } := by
  simp [tickCapture, h]

/-- The capture part of a TICK does not look at what is pending. -/
theorem tickCapture_setPending (rest : List Stimulus) (s : State) :
    tickCapture (s.setPending rest) = (tickCapture s).setPending rest := by
  by_cases h : s.cap.count.toNat = modulus s.params - 1
  · have h' : (s.setPending rest).cap.count.toNat = modulus (s.setPending rest).params - 1 := h
    unfold tickCapture
    rw [if_pos h, if_pos h']
    obtain ⟨p, r, cl, ⟨en, idle, nc, ph, et, pin, c, f⟩, l, sh, fs, m, t, hd, rd, pe⟩ := s
    cases ph <;> rfl
  · rw [tickCapture_of_no_wrap (s := s) h, tickCapture_of_no_wrap (s := s.setPending rest) h]; rfl

/-- The invariant of the capture fields does not depend on NC. -/
theorem Capture.Inv.setNc {q : Params} {c : Capture} (h : c.Inv q) (nc : Bool) : Capture.Inv q { c with nc := nc } :=
  ⟨h.countFits, h.firstFits, h.enabled, h.pinFirst, h.pinSecond, h.typePending⟩

end Sys2Proof.Machine
end

