-- ==== Sys2Proof/Laws/PerInstr.lean ====
section
/-! SUPPORT. Statements made of every instruction as syntax, one lemma per constructor. -/

namespace Sys2Proof.Laws

namespace OpcodeNibble

/-- The OP of an instruction's row (spec/30_encoding.md R80); the events have none, and a reserved word has its own. -/
def opOf (i : Instr) : Option Nat :=
  match i with
  | .nop => some 0
  | .setClock _ _ => some 1
  | .configRead _ _ => some 2
  | .configReadStop _ _ => some 2
  | .txPush _ => some 3
  | .txSend => some 4
  | .txClearStage => some 5
  | .tick => none
  | .edge _ => none
  | .reserved w => some (w >>> 28).toNat

/-- The word of an instruction has the OP of its row in its bits 31 to 28, and exactly the commands have a word
(spec/30_encoding.md R80; spec/00_scope.md R2). -/
def Statement (i : Instr) : Prop :=
  (encode i).map (fun w => (opField w).toNat) = opOf i ∧ (encode i).isSome = i.isCommand

/-- The top nibble of a word whose top four bits are `op`. -/
theorem opField_append (op : BitVec 4) (arg : BitVec 28) : opField (op ++ arg) = op := by
  apply BitVec.eq_of_toNat_eq
  have h1 := op.isLt
  have h2 := arg.isLt
  rw [opField_toNat, append_toNat]
  omega

theorem nop : Statement .nop := by unfold Statement; decide

theorem setClock (psc : BitVec 4) (period : BitVec 24) : Statement (.setClock psc period) := by
  refine ⟨?_, rfl⟩
  have h : (0x1#4 ++ period ++ psc : Word) = 0x1#4 ++ (period ++ psc) := by
    rw [BitVec.append_assoc]; rfl
  simp only [encode, Option.map_some, opOf]
  rw [h, opField_append]
  rfl

theorem configRead (idle nc : Bool) : Statement (.configRead idle nc) := by
  cases idle <;> cases nc <;> (unfold Statement; decide)

theorem configReadStop (idle nc : Bool) : Statement (.configReadStop idle nc) := by
  cases idle <;> cases nc <;> (unfold Statement; decide)

theorem txPush (type : EdgeType) : Statement (.txPush type) := by
  cases type <;> (unfold Statement; decide)

theorem txSend : Statement .txSend := by unfold Statement; decide

theorem txClearStage : Statement .txClearStage := by unfold Statement; decide

theorem tick : Statement .tick := by unfold Statement; decide

theorem edge (v : Level) : Statement (.edge v) := by
  cases v <;> (unfold Statement; decide)

theorem reserved (w : Word) : Statement (.reserved w) := by
  refine ⟨?_, rfl⟩
  simp only [encode, Option.map_some, opOf, opField_toNat, ushiftRight28_toNat]

end OpcodeNibble

end Sys2Proof.Laws
end

