-- ==== Sys2Proof/Laws/Transmit.lean ====
section
/-! SUPPORT. The transmit queue: the levels of an extended queue, and that every operation on the transmit fields keeps
their invariant. -/

namespace Sys2Proof.Machine

variable (q r : List Pulse) (p : Params) (tx : Tx)

@[simp] theorem busy_iff : tx.busy = true ↔ 0 < tx.queue.length := by simp [Tx.busy]
theorem not_busy_iff : tx.busy = false ↔ tx.queue = [] := by simp [Tx.busy]

/-- An entry of the queue that an append leaves in place. -/
theorem queueEntry_append {i : Nat} (h : i < q.length) : queueEntry (q ++ r) i = queueEntry q i := by
  simp [queueEntry, List.getElem?_append_left h]

/-- The entries of the appended list. -/
theorem queueEntry_append_right (i : Nat) (h : i < r.length) : queueEntry (q ++ r) (q.length + i) = queueEntry r i := by
  simp [queueEntry, h]

theorem halfLevel_append {h : Nat} (hh : h < 2 * q.length) : halfLevel (q ++ r) h = halfLevel q h := by
  simp only [halfLevel, queueEntry_append q r (show h / 2 < q.length by omega)]

theorem halfWidth_append {h : Nat} (hh : h < 2 * q.length) : halfWidth (q ++ r) h = halfWidth q h := by
  simp only [halfWidth, queueEntry_append q r (show h / 2 < q.length by omega)]

theorem halfLevel_append_right {h : Nat} (hh : h < 2 * r.length) :
    halfLevel (q ++ r) (2 * q.length + h) = halfLevel r h := by
  have h1 : (2 * q.length + h) / 2 = q.length + h / 2 := by omega
  have h2 : (2 * q.length + h) % 2 = h % 2 := by omega
  simp only [halfLevel, h1, h2, queueEntry_append_right q r (h / 2) (by omega)]

theorem halfWidth_append_right {h : Nat} (hh : h < 2 * r.length) :
    halfWidth (q ++ r) (2 * q.length + h) = halfWidth r h := by
  have h1 : (2 * q.length + h) / 2 = q.length + h / 2 := by omega
  have h2 : (2 * q.length + h) % 2 = h % 2 := by omega
  simp only [halfWidth, h1, h2, queueEntry_append_right q r (h / 2) (by omega)]

/-- Every width of a queue of W-bit pulses is a W-bit value. -/
theorem halfWidth_fits {q : List Pulse} (hq : ∀ e ∈ q, PulseFits p e) {h : Nat} (hh : h < 2 * q.length) :
    HalfFits p (halfWidth q h) := by
  have hi : h / 2 < q.length := by omega
  have he : queueEntry q (h / 2) = q[h / 2] := by simp [queueEntry, List.getElem?_eq_getElem hi]
  have hf := hq _ (List.getElem_mem hi)
  unfold halfWidth
  split <;> rw [he]
  · exact hf.1
  · exact hf.2

/-- The cursor of a train that Q_CAP bounds counts without wrapping. -/
theorem cursor_ofNat {p : Params} (hp : p.Valid) {n h : Nat} (hn : n ≤ p.qCap) (hh : h < 2 * n) :
    (BitVec.ofNat 17 h).toNat = h := by
  have := hp.2.2.2.1
  rw [BitVec.toNat_ofNat]; omega

/-- A compare match keeps the invariant of a busy transmitter. -/
theorem compareMatch_inv {p : Params} {tx : Tx} (hp : p.Valid) (ht : tx.Inv p) (hb : tx.busy = true) :
    (compareMatch p tx).Inv p := by
  have hc := ht.cursorBusy hb
  have hlen : 0 < tx.queue.length := by simpa using hb
  have hps := ht.preselNext hb
  unfold compareMatch
  dsimp only
  split
  · next hend =>
    have hn : ¬ tx.cursor.toNat + 1 < 2 * tx.queue.length := by omega
    simp only [if_neg hn] at hps
    exact
      { countFits := ht.countFits, cmpFits := ht.cmpFits, txdFits := ht.txdFits, queueFits := by simp [txComplete],
        stageFits := ht.stageFits, queueCap := by simp [txComplete], stageCap := ht.stageCap,
        cursorBusy := by simp [txComplete], quietIdle := by simp [txComplete, hps],
        pinPlays := by simp [txComplete], preselNext := by simp [txComplete] }
  · next hmid =>
    have hlt : tx.cursor.toNat + 1 < 2 * tx.queue.length := by omega
    simp only [if_pos hlt] at hps
    have hcur := cursor_ofNat hp ht.queueCap hlt
    exact
      { countFits := ht.countFits, cmpFits := wrap_fits hp _, txdFits := ht.txdFits, queueFits := ht.queueFits,
        stageFits := ht.stageFits, queueCap := ht.queueCap, stageCap := ht.stageCap,
        cursorBusy := fun _ => by simpa only [hcur] using hlt,
        quietIdle := fun h => by simp [Tx.busy] at h; simp [h] at hlen,
        pinPlays := fun _ => by simpa only [hcur] using hps,
        preselNext := fun _ => by simp only [hcur] }

/-- The transmit part of a TICK keeps the invariant. -/
theorem tickTx_inv {p : Params} {tx : Tx} (hp : p.Valid) (ht : tx.Inv p) : (tickTx p tx).Inv p := by
  have h' : Tx.Inv p { tx with count := wrap p (tx.count.toNat + 1) } :=
    { ht with countFits := wrap_fits hp _ }
  unfold tickTx
  dsimp only
  split
  · next hm => exact compareMatch_inv hp h' hm.1
  · exact h'

/-- The append of an accepted TX_SEND keeps the invariant. -/
theorem sendStage_inv {p : Params} {tx : Tx} (hp : p.Valid) (ht : tx.Inv p) (hs : tx.stage ≠ [])
    (hcap : tx.queue.length + tx.stage.length ≤ p.qCap) : (sendStage p tx).Inv p := by
  have hslen : 0 < tx.stage.length := List.length_pos_iff.2 hs
  have hfits : ∀ e ∈ tx.queue ++ tx.stage, PulseFits p e := by
    intro e he
    rcases List.mem_append.1 he with h | h
    · exact ht.queueFits e h
    · exact ht.stageFits e h
  have hlen : (tx.queue ++ tx.stage).length ≤ p.qCap := by simpa using hcap
  unfold sendStage
  split
  · next h0 =>
    have hq : tx.queue = [] := List.length_eq_zero_iff.1 h0
    have h1 : 1 < 2 * tx.stage.length := by omega
    exact
      { countFits := ht.countFits, cmpFits := wrap_fits hp _, txdFits := ht.txdFits, queueFits := hfits,
        stageFits := by simp [txStart, appendStage], queueCap := hlen, stageCap := by simp [txStart, appendStage],
        cursorBusy := fun _ => by simp [txStart, appendStage]; omega,
        quietIdle := fun h => by simp [txStart, appendStage, Tx.busy] at h; simp [h] at hs,
        pinPlays := fun _ => by simp [txStart, appendStage],
        preselNext := fun _ => by simp [txStart, appendStage, hq, h1] }
  · next h0 =>
    have hb : tx.busy = true := by simp; omega
    have hc := ht.cursorBusy hb
    have hpin := ht.pinPlays hb
    have hps := ht.preselNext hb
    split
    · next hlast =>
      have hn : tx.cursor.toNat + 1 < 2 * (tx.queue ++ tx.stage).length := by simp; omega
      exact
        { countFits := ht.countFits, cmpFits := ht.cmpFits, txdFits := ht.txdFits, queueFits := hfits,
          stageFits := by simp [appendStage], queueCap := hlen, stageCap := by simp [appendStage],
          cursorBusy := fun _ => by simp [appendStage]; omega,
          quietIdle := fun h => by simp [appendStage, Tx.busy] at h; simp [h] at hs,
          pinPlays := fun _ => by simp only [appendStage]; rw [halfLevel_append _ _ hc]; exact hpin,
          preselNext := fun _ => (congrArg (halfLevel (tx.queue ++ tx.stage)) hlast.symm).trans (if_pos hn).symm }
    · next hmid =>
      have hlt : tx.cursor.toNat + 1 < 2 * tx.queue.length := by omega
      have hn : tx.cursor.toNat + 1 < 2 * (tx.queue ++ tx.stage).length := by simp; omega
      rw [if_pos hlt] at hps
      exact
        { countFits := ht.countFits, cmpFits := ht.cmpFits, txdFits := ht.txdFits, queueFits := hfits,
          stageFits := by simp [appendStage], queueCap := hlen, stageCap := by simp [appendStage],
          cursorBusy := fun _ => by simp [appendStage]; omega,
          quietIdle := fun h => by simp [appendStage, Tx.busy] at h; simp [h] at hs,
          pinPlays := fun _ => by simp only [appendStage]; rw [halfLevel_append _ _ hc]; exact hpin,
          preselNext := fun _ => (hps.trans (halfLevel_append _ _ hlt).symm).trans (if_pos hn).symm }

/-- A write of TXCFG keeps the invariant. -/
theorem writeTxcfg_inv {p : Params} {tx : Tx} (ht : tx.Inv p) (v : Word) : (writeTxcfg v tx).Inv p := by
  unfold writeTxcfg
  split
  · exact ht
  · next hb =>
    have hq : tx.busy = false := (Bool.not_eq_true _).mp hb
    have h0 := (ht.quietIdle hq).1
    have hempty := (not_busy_iff tx).1 hq
    exact
      { countFits := ht.countFits, cmpFits := ht.cmpFits, txdFits := ht.txdFits, queueFits := ht.queueFits,
        stageFits := ht.stageFits, queueCap := ht.queueCap, stageCap := ht.stageCap,
        cursorBusy := by simp [hempty], quietIdle := fun _ => ⟨h0, rfl⟩,
        pinPlays := by simp [hempty], preselNext := by simp [hempty] }

end Sys2Proof.Machine
end

