-- ==== Sys2Proof/Laws/Step.lean ====
section
/-! SUPPORT. The step: what an instruction, an access and a stimulus can do, said once. -/

namespace Sys2Proof.Machine

/-- Every instruction answers a next state in every state. -/
theorem exec_next (i : Instr) (s : State) : ∃ t, exec i s = .next t := by
  cases i with
  | nop => exact ⟨_, rfl⟩
  | setClock psc period => simp only [exec, execSetClock]; split <;> exact ⟨_, rfl⟩
  | configRead idle nc => simp only [exec, execConfigRead]; repeat' split
                          all_goals exact ⟨_, rfl⟩
  | configReadStop idle nc => exact ⟨_, rfl⟩
  | txPush type => simp only [exec, execTxPush]; split <;> exact ⟨_, rfl⟩
  | txSend => simp only [exec, execTxSend]; repeat' split
              all_goals exact ⟨_, rfl⟩
  | txClearStage => exact ⟨_, rfl⟩
  | tick => simp only [exec, execTick]; split <;> exact ⟨_, rfl⟩
  | edge v => simp only [exec, execEdge]; split <;> exact ⟨_, rfl⟩
  | reserved w => exact ⟨_, rfl⟩

/-- What SET_CLOCK does. -/
theorem setClock_cases {psc : BitVec 4} {period : BitVec 24} {s t : State} (h : exec (.setClock psc period) s = .next t) :
    (clockBusy s = true ∧ t = s.setResult .busAlreadyRunning) ∨
    (clockBusy s = false ∧
      t = (((s.setClock { psc := psc, period := period, clkSet := true }).setCap { s.cap with count := 0 }).setTx
        { s.tx with count := 0 }).setResult .ok) := by
  simp only [exec, execSetClock] at h
  split at h
  · next hb => exact .inl ⟨hb, by injection h with h; exact h.symm⟩
  · next hb => exact .inr ⟨by simpa using hb, by injection h with h; exact h.symm⟩

/-- What CONFIG_READ with EN = 1 does. -/
theorem configRead_cases {idle nc : Bool} {s t : State} (h : exec (.configRead idle nc) s = .next t) :
    (s.clock.clkSet = false ∧ t = s.setResult .busNotConfigured) ∨
    (s.clock.clkSet = true ∧ s.cap.phase.halfPending = true ∧ idle ≠ s.cap.idle ∧ t = s.setResult .busAlreadyRunning) ∨
    (s.clock.clkSet = true ∧ s.cap.phase.halfPending = true ∧ idle = s.cap.idle ∧
      t = (s.setCap { s.cap with nc := nc, en := true }).setResult .ok) ∨
    (s.clock.clkSet = true ∧ s.cap.phase.halfPending = false ∧
      t = (s.setCap { s.cap with phase := .waitStart, idle := idle, nc := nc, en := true }).setResult .ok) := by
  simp only [exec, execConfigRead] at h
  split at h
  · next hc => exact .inl ⟨hc, by injection h with h; exact h.symm⟩
  · next hc =>
    have hc : s.clock.clkSet = true := by simpa using hc
    split at h
    · next hp => exact .inr (.inl ⟨hc, hp.1, hp.2, by injection h with h; exact h.symm⟩)
    · next hp =>
      injection h with h
      subst h
      cases hph : s.cap.phase with
      | off => exact .inr (.inr (.inr ⟨hc, rfl, by simp⟩))
      | waitStart => exact .inr (.inr (.inr ⟨hc, rfl, by simp⟩))
      | first =>
        have hi : idle = s.cap.idle := by
          by_contra hne
          exact hp ⟨by rw [hph]; rfl, hne⟩
        exact .inr (.inr (.inl ⟨hc, rfl, hi, by simp [hi, hph]⟩))
      | second =>
        have hi : idle = s.cap.idle := by
          by_contra hne
          exact hp ⟨by rw [hph]; rfl, hne⟩
        exact .inr (.inr (.inl ⟨hc, rfl, hi, by simp [hi, hph]⟩))

/-- What TX_PUSH does. -/
theorem txPush_cases {type : EdgeType} {s t : State} (h : exec (.txPush type) s = .next t) :
    (s.tx.stage.length = s.params.sCap ∧ t = s.setResult .queueFull) ∨
    (s.tx.stage.length ≠ s.params.sCap ∧
      t = (s.setTx
        { s.tx with
          stage :=
            s.tx.stage ++
              [{ first := lowW s.params s.tx.txdFirst, second := lowW s.params s.tx.txdSecond, type := type }] }).setResult
        .ok) := by
  simp only [exec, execTxPush] at h
  split at h
  · next hb => exact .inl ⟨hb, by injection h with h; exact h.symm⟩
  · next hb => exact .inr ⟨hb, by injection h with h; exact h.symm⟩

/-- What TX_SEND does. -/
theorem txSend_cases {s t : State} (h : exec .txSend s = .next t) :
    (s.clock.clkSet = false ∧ t = s.setResult .busNotConfigured) ∨
    (s.clock.clkSet = true ∧ s.tx.stage = [] ∧ t = s.setResult .ok) ∨
    (s.clock.clkSet = true ∧ s.tx.stage ≠ [] ∧ s.params.qCap < s.tx.queue.length + s.tx.stage.length ∧
      t = s.setResult .queueFull) ∨
    (s.clock.clkSet = true ∧ s.tx.stage ≠ [] ∧ s.tx.queue.length + s.tx.stage.length ≤ s.params.qCap ∧
      t = (s.setTx (sendStage s.params s.tx)).setResult .ok) := by
  simp only [exec, execTxSend] at h
  split at h
  · next hc => exact .inl ⟨hc, by injection h with h; exact h.symm⟩
  · next hc =>
    have hc : s.clock.clkSet = true := by simpa using hc
    split at h
    · next hs => exact .inr (.inl ⟨hc, List.length_eq_zero_iff.1 hs, by injection h with h; exact h.symm⟩)
    · next hs =>
      have hs : s.tx.stage ≠ [] := fun e => hs (by simp [e])
      split at h
      · next hq => exact .inr (.inr (.inl ⟨hc, hs, hq, by injection h with h; exact h.symm⟩))
      · next hq => exact .inr (.inr (.inr ⟨hc, hs, by omega, by injection h with h; exact h.symm⟩))

/-- What a TICK does. -/
theorem tick_cases {s t : State} (h : exec .tick s = .next t) :
    (s.clock.clkSet = false ∧ t = s) ∨
    (s.clock.clkSet = true ∧ t = (tickCapture s).setTx (tickTx s.params s.tx)) := by
  cases hc : s.clock.clkSet with
  | false => simp only [exec, execTick, hc] at h; exact .inl ⟨rfl, by injection h with h; exact h.symm⟩
  | true =>
    have h : execTick s = .next t := h
    rw [execTick_eq hc] at h
    exact .inr ⟨rfl, by injection h with h; exact h.symm⟩

/-- What an edge does, phase by phase. -/
theorem edge_cases {v : Level} {s t : State} (h : exec (.edge v) s = .next t) :
    (v = s.cap.pinIn ∧ t = s) ∨
    (v = (!s.cap.pinIn) ∧ s.cap.phase = .off ∧ t = s.setCap { s.cap with pinIn := v }) ∨
    (v = (!s.cap.pinIn) ∧ s.cap.phase = .waitStart ∧ v = s.cap.idle ∧ t = s.setCap { s.cap with pinIn := v }) ∨
    (v = (!s.cap.pinIn) ∧ s.cap.phase = .waitStart ∧ v = (!s.cap.idle) ∧
      t = s.setCap
        { s.cap with pinIn := v, count := 0, edgeType := edgeTypeOfIdle s.cap.idle, phase := .first }) ∨
    (v = (!s.cap.pinIn) ∧ s.cap.phase = .first ∧
      t = s.setCap { s.cap with pinIn := v, first := s.cap.count, count := 0, phase := .second }) ∨
    (v = (!s.cap.pinIn) ∧ s.cap.phase = .second ∧
      t = emit { first := s.cap.first, second := s.cap.count, type := s.cap.edgeType }
        (s.setCap { s.cap with pinIn := v, count := 0, phase := .first })) := by
  have hbool : ∀ a b : Bool, ¬ a = b → a = !b := by decide
  simp only [exec, execEdge] at h
  split at h
  · next hv => exact .inl ⟨hv, by injection h with h; exact h.symm⟩
  · next hv =>
    have hv := hbool _ _ hv
    injection h with h
    subst h
    right
    cases hph : s.cap.phase with
    | off => exact .inl ⟨hv, rfl, by simp [captureEdge, hph]⟩
    | waitStart =>
      right
      by_cases hi : v = s.cap.idle
      · exact .inl ⟨hv, rfl, hi, by simp [captureEdge, edgeWaitStart, hph, hi]⟩
      · exact .inr (.inl ⟨hv, rfl, hbool _ _ hi, by simp only [captureEdge, edgeWaitStart, State.setCap_cap]; exact if_pos hi⟩)
    | first => exact .inr (.inr (.inr (.inl ⟨hv, rfl, by simp only [captureEdge, State.setCap_cap]; rfl⟩)))
    | second => exact .inr (.inr (.inr (.inr ⟨hv, rfl, by simp only [captureEdge, State.setCap_cap]; rfl⟩)))

/-- What a host read can do. -/
theorem memRead_cases {w : Width} {addr : Nat} {s t : State} (h : memRead w addr s = .next t) :
    t = s ∨ ∃ r, classify s.params w addr = .register r ∧ t = readReg r s := by
  unfold memRead at h
  split at h
  · exact .inl (by injection h with h; exact h.symm)
  · exact absurd h (by simp)
  · next r hr => exact .inr ⟨r, hr, by injection h with h; exact h.symm⟩

/-- What a host write can do: nothing, run a command, or write a register. -/
theorem memWrite_cases {w : Width} {addr : Nat} {v : Word} {s t : State} (h : memWrite w addr v s = .next t) :
    t = s ∨ (classify s.params w addr = .register .cmd ∧ exec (decode v) s = .next t) ∨ ∃ r, t = writeReg r v s := by
  unfold memWrite at h
  split at h
  · exact .inl (by injection h with h; exact h.symm)
  · exact absurd h (by simp)
  · next hr => exact .inr (.inl ⟨hr, h⟩)
  · next r _ hr => exact .inr (.inr ⟨r, by injection h with h; exact h.symm⟩)

/-- What reading a register leaves: the host's word, and the mailbox's READY when it was MBX_CODE. -/
theorem readReg_eq (r : Reg) (s : State) :
    readReg r s = s.setHostData (peek s r) ∨
      readReg r s = (s.setHostData (peek s r)).setMbx { s.mbx with ready := false } := by
  cases r <;> simp [readReg]

/-- What writing a register leaves: the shapes, or the transmit fields that the host may write. -/
theorem writeReg_eq (r : Reg) (v : Word) (s : State) :
    writeReg r v s = s ∨ (∃ h, writeReg r v s = s.setShapes h) ∨ writeReg r v s = s.setTx (writeTxcfg v s.tx) ∨
      writeReg r v s =
        s.setTx { s.tx with txdFirst := lowW s.params (firstField v), txdSecond := lowW s.params (secondField v) } := by
  cases r <;>
    first
      | exact .inl rfl
      | exact .inr (.inl ⟨_, rfl⟩)
      | exact .inr (.inr (.inl rfl))
      | exact .inr (.inr (.inr rfl))

/-- Writing a register keeps the shapes W bits wide. -/
theorem writeReg_shapesFit (r : Reg) (v : Word) (s : State) (hp : s.params.Valid)
    (h : PulseFits s.params s.shapes.lead ∧ PulseFits s.params s.shapes.rep ∧ PulseFits s.params s.shapes.one ∧
      PulseFits s.params s.shapes.zero) :
    PulseFits s.params (writeReg r v s).shapes.lead ∧ PulseFits s.params (writeReg r v s).shapes.rep ∧
      PulseFits s.params (writeReg r v s).shapes.one ∧ PulseFits s.params (writeReg r v s).shapes.zero := by
  obtain ⟨h1, h2, h3, h4⟩ := h
  have hw : ∀ old, PulseFits s.params (shapeWrite s.params v old) := fun old => ⟨lowW_fits hp _, lowW_fits hp _⟩
  cases r <;>
    first
      | exact ⟨h1, h2, h3, h4⟩
      | exact ⟨hw _, h2, h3, h4⟩
      | exact ⟨h1, hw _, h3, h4⟩
      | exact ⟨h1, h2, hw _, h4⟩
      | exact ⟨h1, h2, h3, hw _⟩

/-- What a poll of the reader leaves. -/
theorem readerPoll_eq (s : State) :
    readerPoll s = s ∨ ∃ c, s.reader = .waiting c ∧
      ((consume c (peek s .mbxCode) = none ∧ readerPoll s = readReg .mbxCode s) ∨
        ∃ cmd, consume c (peek s .mbxCode) = some cmd ∧ readerPoll s = (readReg .mbxCode s).setReader (.returned cmd)) := by
  unfold readerPoll
  split
  · simp
  · simp
  · next c hc =>
    right
    refine ⟨c, hc, ?_⟩
    cases hw : consume c (peek s .mbxCode) with
    | none => simp
    | some cmd => simp

/-- What calling the reader leaves. -/
theorem readerOpen_eq (c : ReaderConfig) (s : State) :
    readerOpen c s = s ∨ ((∀ c', s.reader ≠ .waiting c') ∧ readerOpen c s = s.setReader (.waiting c)) := by
  unfold readerOpen
  split <;> simp_all

/-- What one step does: nothing, or its next stimulus. -/
theorem step_cases {s t : State} (h : step s = .next t) :
    (s.pending = [] ∧ t = s) ∨ ∃ a rest, s.pending = a :: rest ∧ perform a (s.setPending rest) = .next t := by
  unfold step at h
  split at h
  · next hp => exact .inl ⟨hp, by injection h with h; exact h.symm⟩
  · next a rest hp => exact .inr ⟨a, rest, hp, h⟩

end Sys2Proof.Machine
end

