-- ==== Sys2Proof/Laws/Waveform.lean ====
section
/-! SUPPORT. The waveform of a train: how a TICK, the start of a train and an append change what remains to be driven. -/

namespace Sys2Proof.Machine

/-- One more step of a run. -/
theorem run_succ {M : Host.Core} (n : Nat) {s t : M.State} (h : M.step s = .next t) : M.run (n + 1) s = M.run n t := by
  rw [Host.Core.run, h]

/-- A step whose next stimulus is a TICK, with the clock set. -/
theorem step_tick {s : State} {rest : List Stimulus} (h : s.clock.clkSet = true) (hp : s.pending = .tick :: rest) :
    step s = .next (((tickCapture s).setTx (tickTx s.params s.tx)).setPending rest) := by
  unfold step
  rw [hp]
  show execTick (s.setPending rest) = _
  rw [execTick_eq (by simpa using h), tickCapture_setPending]
  rfl

/-- The halves of a train in two parts. -/
theorem wavePart_append (p : Params) (q : List Pulse) (h a b : Nat) :
    wavePart p q h (a + b) = wavePart p q h a ++ wavePart p q (h + a) b := by
  induction a generalizing h with
  | zero => simp [wavePart]
  | succ a ih =>
    rw [Nat.succ_add, wavePart, wavePart, ih, List.append_assoc, show h + 1 + a = h + (a + 1) by omega]

/-- The halves of the front of an extended queue. -/
theorem wavePart_left (p : Params) (q r : List Pulse) (n h : Nat) (hh : h + n ≤ 2 * q.length) :
    wavePart p (q ++ r) h n = wavePart p q h n := by
  induction n generalizing h with
  | zero => rfl
  | succ n ih =>
    rw [wavePart, wavePart, ih _ (by omega), halfWidth_append q r (by omega), halfLevel_append q r (by omega)]

/-- The halves of the back of an extended queue. -/
theorem wavePart_right (p : Params) (q r : List Pulse) (n h : Nat) (hh : h + n ≤ 2 * r.length) :
    wavePart p (q ++ r) (2 * q.length + h) n = wavePart p r h n := by
  induction n generalizing h with
  | zero => rfl
  | succ n ih =>
    rw [wavePart, wavePart, Nat.add_assoc, ih _ (by omega), halfWidth_append_right q r (by omega),
      halfLevel_append_right q r (by omega)]

/-- The ticks to the match, as a number without a remainder. -/
theorem ticksToMatch_eq {p : Params} {tx : Tx} (h2 : tx.cmp.toNat < modulus p) :
    ticksToMatch p tx =
      if tx.count.toNat < tx.cmp.toNat then tx.cmp.toNat - tx.count.toNat
      else tx.cmp.toNat + modulus p - tx.count.toNat := by
  unfold ticksToMatch
  by_cases e : tx.cmp = tx.count
  · rw [if_pos e, e]; simp
  · have e' : tx.cmp.toNat ≠ tx.count.toNat := fun x => e (BitVec.eq_of_toNat_eq x)
    rw [if_neg e]
    split
    · rw [show tx.cmp.toNat + modulus p - tx.count.toNat = (tx.cmp.toNat - tx.count.toNat) + modulus p by omega,
        Nat.add_mod_right, Nat.mod_eq_of_lt (by omega)]
    · rw [Nat.mod_eq_of_lt (by omega)]

/-- A match is always still to come. -/
theorem ticksToMatch_pos {p : Params} {tx : Tx} (ht : tx.Inv p) : 0 < ticksToMatch p tx := by
  have h1 := ht.countFits
  have h2 := ht.cmpFits
  rw [ticksToMatch_eq h2]
  split <;> omega

/-- The ticks to the match of a compare value just programmed: the width of the half, or a full wrap for width 0. -/
theorem ticksToMatch_new {p : Params} {tx : Tx} (hp : p.Valid) {d : Half} (hd : HalfFits p d) (hc : HalfFits p tx.count)
    (h : tx.cmp = wrap p (tx.count.toNat + d.toNat)) : ticksToMatch p tx = halfTicks p d := by
  unfold HalfFits at hd hc
  have hv : tx.cmp.toNat = (tx.count.toNat + d.toNat) % modulus p := by rw [h, wrap_toNat hp]
  have hlt := Nat.mod_lt (tx.count.toNat + d.toNat) (modulus_pos p)
  have hmod : (tx.count.toNat + d.toNat) % modulus p =
      if tx.count.toNat + d.toNat < modulus p then tx.count.toNat + d.toNat
      else tx.count.toNat + d.toNat - modulus p := by
    split
    · rw [Nat.mod_eq_of_lt (by assumption)]
    · rw [Nat.mod_eq_sub_mod (by omega), Nat.mod_eq_of_lt (by omega)]
  rw [ticksToMatch_eq (by omega), hv, hmod]
  unfold halfTicks
  split <;> split <;> split <;> omega

/-- A tick matches exactly when one tick was left; otherwise one fewer is left. -/
theorem ticksToMatch_count {p : Params} {tx : Tx} (hp : p.Valid) (ht : tx.Inv p) :
    (wrap p (tx.count.toNat + 1) = tx.cmp ↔ ticksToMatch p tx = 1) ∧
      (wrap p (tx.count.toNat + 1) ≠ tx.cmp →
        ticksToMatch p { tx with count := wrap p (tx.count.toNat + 1) } + 1 = ticksToMatch p tx) := by
  have h1 := ht.countFits
  have h2 := ht.cmpFits
  unfold HalfFits at h1 h2
  have hf := wrap_fits hp (tx.count.toNat + 1)
  have hw : (wrap p (tx.count.toNat + 1)).toNat = if tx.count.toNat + 1 = modulus p then 0 else tx.count.toNat + 1 := by
    rw [wrap_toNat hp]
    split
    · next h => rw [h, Nat.mod_self]
    · rw [Nat.mod_eq_of_lt (by omega)]
  have heq : wrap p (tx.count.toNat + 1) = tx.cmp ↔ (wrap p (tx.count.toNat + 1)).toNat = tx.cmp.toNat :=
    ⟨fun e => by rw [e], BitVec.eq_of_toNat_eq⟩
  rw [Ne, heq, ticksToMatch_eq h2, ticksToMatch_eq (tx := { tx with count := wrap p (tx.count.toNat + 1) }) h2]
  dsimp only
  generalize (wrap p (tx.count.toNat + 1)).toNat = x at *
  constructor
  · constructor
    · intro e; split at hw <;> split <;> omega
    · intro e; split at hw <;> split at e <;> omega
  · intro e; split at hw <;> split <;> split <;> omega

/-- While the transmitter is busy, the first of the remaining levels is the level of the pin. -/
theorem remaining_head {p : Params} {tx : Tx} (ht : tx.Inv p) (hb : tx.busy = true) :
    (remaining p tx)[0]? = some tx.pinOut := by
  have := ticksToMatch_pos ht
  simp only [remaining, hb, if_true]
  rw [List.getElem?_append_left (by simpa using this)]
  simp [this]

/-- A TICK drives the first of the remaining levels and leaves the others. -/
theorem remaining_tick {p : Params} {tx : Tx} (hp : p.Valid) (ht : tx.Inv p) (hb : tx.busy = true) :
    remaining p (tickTx p tx) = (remaining p tx).tail := by
  have hlen : 0 < tx.queue.length := by simpa using hb
  have hc := ht.cursorBusy hb
  obtain ⟨k1, k2⟩ := ticksToMatch_count hp ht
  have hb' : ({ tx with count := wrap p (tx.count.toNat + 1) } : Tx).busy = true := hb
  unfold tickTx
  dsimp only
  by_cases hm : wrap p (tx.count.toNat + 1) = tx.cmp
  · rw [if_pos ⟨hb', hm⟩]
    have hr : (remaining p tx).tail =
        wavePart p tx.queue (tx.cursor.toNat + 1) (2 * tx.queue.length - (tx.cursor.toNat + 1)) := by
      simp [remaining, hb, k1.1 hm]
    rw [hr]
    unfold compareMatch
    dsimp only
    split
    · next he => rw [he]; simp [wavePart, remaining, txComplete, Tx.busy]
    · next he =>
      have hlt : tx.cursor.toNat + 1 < 2 * tx.queue.length := by omega
      have hps := ht.preselNext hb
      rw [if_pos hlt] at hps
      unfold remaining
      rw [if_pos (by simpa [Tx.busy] using hlen)]
      dsimp only
      rw [cursor_ofNat hp ht.queueCap hlt,
        show 2 * tx.queue.length - (tx.cursor.toNat + 1) = (2 * tx.queue.length - (tx.cursor.toNat + 1 + 1)) + 1 by omega,
        wavePart, ticksToMatch_new hp (halfWidth_fits p ht.queueFits hlt) (wrap_fits hp _) (by rw [← hm]), hps]
  · rw [if_neg (fun h => hm h.2)]
    have hb2 : tx.busy = true := hb
    unfold remaining
    rw [if_pos hb', if_pos hb2, ← k2 hm]
    rfl

/-- A TICK keeps the idle level, and the queue unless it releases it. -/
theorem tickTx_frame (p : Params) (tx : Tx) :
    (tickTx p tx).idle = tx.idle ∧ ((tickTx p tx).queue = tx.queue ∨ (tickTx p tx).queue = []) := by
  unfold tickTx compareMatch txComplete
  dsimp only
  split
  · split <;> simp
  · simp

/-- A train that starts has its whole waveform before it. -/
theorem remaining_start {p : Params} (hp : p.Valid) {tx : Tx} (ht : tx.Inv p) (hq : tx.queue = []) (hs : tx.stage ≠ []) :
    remaining p (sendStage p tx) = waveform p tx.stage := by
  have hl : 0 < tx.stage.length := List.length_pos_iff.2 hs
  unfold sendStage
  rw [if_pos (by simp [hq])]
  have hb : (txStart p (appendStage tx)).busy = true := by simp [txStart, appendStage, hq, hl]
  simp only [remaining, hb, if_true, waveform]
  rw [show 2 * tx.stage.length = (2 * tx.stage.length - 1) + 1 by omega, wavePart]
  have : ticksToMatch p (txStart p (appendStage tx)) = halfTicks p (halfWidth tx.stage 0) := by
    refine ticksToMatch_new (tx := txStart p (appendStage tx)) hp ?_ ht.countFits ?_
    · exact halfWidth_fits p ht.stageFits (by omega)
    · simp [txStart, appendStage, hq]
  rw [this]
  simp [txStart, appendStage, hq]

/-- An append adds the waveform of the appended train to what remains. -/
theorem remaining_append {p : Params} {tx : Tx} (ht : tx.Inv p) (hb : tx.busy = true) :
    remaining p (sendStage p tx) = remaining p tx ++ waveform p tx.stage := by
  have hlen : 0 < tx.queue.length := by simpa using hb
  have hc := ht.cursorBusy hb
  have key : ∀ t : Tx, t.queue = tx.queue ++ tx.stage → t.cursor = tx.cursor → t.count = tx.count → t.cmp = tx.cmp →
      t.pinOut = tx.pinOut → remaining p t = remaining p tx ++ waveform p tx.stage := by
    intro t h1 h2 h3 h4 h5
    have hb' : t.busy = true := by simp [h1]; omega
    unfold remaining
    rw [if_pos hb, if_pos hb', h1, h2, h5, List.append_assoc]
    congr 1
    · unfold ticksToMatch; rw [h3, h4]
    · rw [List.length_append,
        show 2 * (tx.queue.length + tx.stage.length) - (tx.cursor.toNat + 1) =
          (2 * tx.queue.length - (tx.cursor.toNat + 1)) + 2 * tx.stage.length by omega, wavePart_append]
      congr 1
      · exact wavePart_left p _ _ _ _ (by omega)
      · rw [show tx.cursor.toNat + 1 + (2 * tx.queue.length - (tx.cursor.toNat + 1)) = 2 * tx.queue.length + 0 by omega]
        exact wavePart_right p _ _ _ _ (by omega)
  unfold sendStage
  rw [if_neg (by omega)]
  split <;> exact key _ rfl rfl rfl rfl rfl

/-- When nothing remains to be driven the transmitter is idle. -/
theorem not_busy_of_remaining_nil {p : Params} {tx : Tx} (ht : tx.Inv p) (h : remaining p tx = []) : tx.busy = false := by
  by_contra hb
  have := remaining_head ht (by simpa using hb)
  rw [h] at this
  simp at this

end Sys2Proof.Machine
end

