-- ==== Sys2Proof/Tests/Slice0.lean ====
section
/-! SUPPORT. Tests: the smoke test of WellFormed, words written out from spec/30_encoding.md, single steps whose results are
those of spec/95_test_vectors.md (the vector is named in the docstring), and, for every statement with hypotheses, a witness
that meets them together. -/

namespace Sys2Proof.Tests

open Sys2Proof Sys2Proof.Machine

/-! ## Helpers -/

/-- A value read from the next state, or nothing when the step stops. -/
def got {α : Type} (r : Result) (f : State → α) : Option α :=
  match r with
  | .next t => some (f t)
  | .fault _ => none
  | .refused _ => none

/-- A Rising pulse. -/
def rising (first second : Nat) : Pulse := ⟨BitVec.ofNat 16 first, BitVec.ofNat 16 second, .rising⟩

/-- The nominal shapes and margin of spec/95_test_vectors.md section 0. -/
def nominal : Shapes :=
  { lead := rising 18000 9000, rep := rising 18000 4500, one := rising 1125 3375, zero := rising 1125 1125, margin := 400 }

/-- The state after the boot sequence B of spec/95_test_vectors.md section 0. -/
def booted : State :=
  { State.reset with
    clock := { psc := 3, clkSet := true, period := 500 }
    cap := { State.reset.cap with en := true, idle := true, phase := .waitStart }
    shapes := nominal }

/-- Booted, in the first half of a pulse. -/
def inFirst (count : Half) : State :=
  { booted with cap := { booted.cap with phase := .first, pinIn := false, count := count } }

/-- Booted, in the second half of a pulse. -/
def inSecond (first count : Half) : State :=
  { booted with cap := { booted.cap with phase := .second, pinIn := true, first := first, count := count } }

/-- A transmitter at tick 100 with a stage. -/
def staged (stage : List Pulse) : State := { booted with tx := { booted.tx with count := 100, stage := stage } }

/-- A transmitter in half `cursor` of the train [{1125, 3375, 0}], started at tick 100, with idle level 1 (V-TX-7). -/
def playing (stage : List Pulse) : State :=
  { booted with
    tx :=
      { booted.tx with
        idle := true, pinOut := false, presel := true, queue := [rising 1125 3375], stage := stage, count := 1224, cmp := 1225 } }

/-- The same train in its last half (V-TX-8, with idle level 1). -/
def lastHalf (stage : List Pulse) : State :=
  { booted with
    tx :=
      { booted.tx with
        idle := true, pinOut := true, presel := true, queue := [rising 1125 3375], stage := stage, cursor := 1,
        count := 4599, cmp := 4600 } }

/-- An FSA with the stored code {0x02FD, 0x48}. -/
def fsaAt (state : FsaState) (bits : BitVec 6) (shift : Word) (nov : Novelty) : Fsa :=
  { state := state, bits := bits, shift := shift, stored := { addr := 0x02FD, cmd := 0x48, nov := nov } }

/-- A mailbox with the code {0x02FD, 0x48}. -/
def mbxWith (nov : Novelty) (ready : Bool) : Mailbox :=
  { code := { addr := 0x02FD, cmd := 0x48, nov := nov }, ready := ready }

/-- The pulse of a bit, nominal shapes. -/
def bitPulse (b : Bool) : Pulse := if b then nominal.one else nominal.zero

/-! ## WellFormed: the one check, and an ill-formed term that it refuses -/

theorem test_wf_reserved_nop_refused : (Instr.reserved 0x00000000#32).wellFormed = false := by decide
theorem test_wf_reserved_set_clock_refused : (Instr.reserved 0x1FFFFFFF#32).wellFormed = false := by decide
theorem test_wf_reserved_config_read_refused : (Instr.reserved 0x20000007#32).wellFormed = false := by decide
theorem test_wf_reserved_accepted : (Instr.reserved 0x20000008#32).wellFormed = true := by decide

/-! ## Decoding: words written out bit by bit from spec/30_encoding.md R81 -/

theorem test_decode_nop : decode 0b00000000000000000000000000000000#32 = .nop := by decide
theorem test_decode_set_clock : decode 0b00010000000000000001111101000011#32 = .setClock 3 500 := by decide
/-- V-ENC-4. -/
theorem test_decode_set_clock_ones : decode 0b00011111111111111111111111111111#32 = .setClock 15 0xFFFFFF := by decide
theorem test_decode_config_read : decode 0b00100000000000000000000000000011#32 = .configRead true false := by decide
theorem test_decode_config_read_nc : decode 0b00100000000000000000000000000101#32 = .configRead false true := by decide
/-- V-ENC-6. -/
theorem test_decode_stop : decode 0b00100000000000000000000000000110#32 = .configReadStop true true := by decide
theorem test_decode_tx_push : decode 0b00110000000000000000000000000001#32 = .txPush .falling := by decide
theorem test_decode_tx_send : decode 0b01000000000000000000000000000000#32 = .txSend := by decide
theorem test_decode_tx_clear_stage : decode 0b01010000000000000000000000000000#32 = .txClearStage := by decide
/-- V-ENC-2, V-ENC-7, V-ENC-9, V-ENC-11. -/
theorem test_decode_reserved_arg :
    decode 0x00000001#32 = .reserved 0x00000001#32 ∧ decode 0x20000008#32 = .reserved 0x20000008#32 ∧
      decode 0x30000002#32 = .reserved 0x30000002#32 ∧ decode 0x40000001#32 = .reserved 0x40000001#32 := by decide
/-- V-ENC-13, V-ENC-14. -/
theorem test_decode_reserved_op :
    decode 0x60000000#32 = .reserved 0x60000000#32 ∧ decode 0xF0000000#32 = .reserved 0xF0000000#32 ∧
      decode 0xFFFFFFFF#32 = .reserved 0xFFFFFFFF#32 := by decide
/-- Little-endian: the first byte of the word 0x10001F43 is 0x43 (spec/20_memory.md R61). -/
theorem test_decode_bytes :
    (match decodeBytes [0x43, 0x1F, 0x00, 0x10, 0xAA] with
      | .ok r => some r
      | .error _ => none) = some (.setClock 3 500, [0xAA]) := by decide
theorem test_decode_table_word : decodeTableWord 32 0x10001F43 = some (.setClock 3 500) := by decide

/-! ## Commands and events -/

/-- V-ENC-1, V-CLK-8. -/
theorem test_nop : got (exec .nop { State.reset with result := .busAlreadyRunning }) (·.result) = some .ok := by decide
/-- V-CLK-1. -/
theorem test_set_clock :
    got (step (State.reset.withFetchWord 32 0x10001F43)) (fun t => (t.result, peek t .clkcfg, peek t .clkperiod)) =
      some (.ok, 0x13, 500) := by decide
/-- V-CLK-2. -/
theorem test_set_clock_busy :
    got (exec (.setClock 0 1) booted) (fun t => (t.result, peek t .clkcfg)) = some (.busAlreadyRunning, 0x13) := by decide
/-- V-CAP-14: a changed idle level in WaitStart. -/
theorem test_config_read :
    got (exec (.configRead false false) booted) (fun t => (t.result, t.cap.idle, t.cap.phase)) =
      some (.ok, false, .waitStart) := by decide
/-- V-CAP-12. -/
theorem test_config_read_pending :
    got (exec (.configRead false false) (inFirst 10)) (fun t => (t.result, t.cap.idle, t.cap.phase)) =
      some (.busAlreadyRunning, true, .first) := by decide
/-- V-CAP-11. -/
theorem test_stop :
    got (exec (.configReadStop false false) (inSecond 18000 5)) (fun t => (t.result, peek t .capcfg, t.cap.first)) =
      some (.readingStopped, 0x82, 0) := by decide
/-- V-TX-1. -/
theorem test_tx_push :
    got (exec (.txPush .rising) { State.reset with tx := { State.reset.tx with txdFirst := 4500, txdSecond := 9000 } })
      (fun t => (t.result, t.tx.stage)) = some (.ok, [rising 4500 9000]) := by decide
/-- V-TX-2, with S_CAP = 1. -/
theorem test_tx_push_full :
    got (exec (.txPush .rising) { staged [rising 1 1] with params := { Params.examples with sCap := 1 } })
      (fun t => (t.result, t.tx.stage.length)) = some (.queueFull, 1) := by decide
/-- V-TX-10. -/
theorem test_tx_send_start :
    got (exec .txSend { booted with tx := { booted.tx with count := 65000, stage := [⟨1125, 3375, .falling⟩] } })
      (fun t => (t.tx.pinOut, t.tx.cmp, t.tx.presel, peek t .txStatus)) = some (true, 589, false, 0x3) := by decide
/-- V-TX-13: the fix-up in the last half. -/
theorem test_tx_send_fix_up :
    got (exec .txSend (lastHalf [rising 1000 2000])) (fun t => (t.tx.queue.length, t.tx.presel)) = some (2, false) := by
  decide
/-- V-TX-16. -/
theorem test_tx_clear_stage :
    got (exec .txClearStage (playing [rising 1 1])) (fun t => (t.tx.stage, t.tx.queue.length)) = some ([], 1) := by decide
/-- V-CLK-7: the overflow and the completion in one TICK. -/
theorem test_tick_both :
    got (exec .tick { lastHalf [] with cap := (inSecond 1125 0xFFFF).cap })
      (fun t => (t.last.pulse, t.cap.phase, t.tx.queue, t.tx.pinOut)) =
      some (rising 1125 65535, .waitStart, [], true) := by decide
/-- V-TX-12: a match in the first half. -/
theorem test_tick_match :
    got (exec .tick (playing [])) (fun t => (t.tx.pinOut, t.tx.cursor, t.tx.cmp, t.tx.presel)) =
      some (true, 1, 4600, true) := by decide
/-- V-CAP-2. -/
theorem test_edge_start :
    got (exec (.edge false) booted) (fun t => (t.cap.phase, t.cap.edgeType, t.cap.count, t.cap.pinIn)) =
      some (.first, .rising, 0, false) := by decide
/-- V-CAP-5. -/
theorem test_edge_emits :
    got (exec (.edge false) (inSecond 18000 9000)) (fun t => (peek t .lastPulse, peek t .lastPulseT, t.cap.phase)) =
      some (0x23284650, 0x00010002, .first) := by decide
/-- V-ENC-7. -/
theorem test_reserved :
    got (step (booted.withFetchWord 32 0x20000008)) (fun t => (t.result, t.cap)) = some (.badCommand, booted.cap) := by
  decide

/-! ## Register accesses -/

/-- V-MEM-4: sub-word is reported, though the address is misaligned too. -/
theorem test_write_sub_word : memWrite .half 0x26 0x1234 booted = .refused .subWordAccess := rfl
/-- V-MEM-5. -/
theorem test_read_misaligned : memRead .word 0x4A booted = .refused .misalignedAccess := rfl
/-- V-MEM-6. -/
theorem test_write_shape_bytes :
    got (memWrite .word 0x24 0x23284650 State.reset)
      (fun t => [windowByte t 0x24, windowByte t 0x25, windowByte t 0x26, windowByte t 0x27]) =
      some [0x50, 0x46, 0x28, 0x23] := by decide
/-- V-MEM-7, first read. -/
theorem test_read_mailbox :
    got (memRead .word 0x48 { booted with mbx := mbxWith .new true }) (fun t => (t.hostData, peek t .mbxPeek)) =
      some (some 0x804802FD, 0x004802FD) := by decide
/-- V-MEM-10. -/
theorem test_write_low_bits :
    got (memWrite .word 0x24 0xFFFFFFFF { booted with params := { Params.examples with w := 12 } }) (peek · .shapeLead) =
      some 0x0FFF0FFF := by decide
/-- V-TX-15. -/
theorem test_write_txcfg :
    got (memWrite .word 0x50 1 booted) (fun t => (t.tx.idle, t.tx.pinOut)) = some (true, true) := by decide

/-! ## Comparator, FSA, reader -/

/-- V-TOL-1, V-TOL-2, V-TOL-8. -/
theorem test_tolerance_inside :
    pulsesEqual (rising 18400 9400) nominal.lead 400 = true ∧ pulsesEqual (rising 17600 8600) nominal.lead 400 = true ∧
      pulsesEqual (rising 0 0) (rising 100 100) 400 = true := by decide
/-- V-TOL-3, V-TOL-4, V-TOL-5. -/
theorem test_tolerance_outside :
    pulsesEqual (rising 18401 9000) nominal.lead 400 = false ∧ pulsesEqual (rising 18000 8599) nominal.lead 400 = false ∧
      pulsesEqual ⟨18000, 9000, .falling⟩ nominal.lead 400 = false := by decide
/-- V-FSA-11, V-FSA-12. -/
theorem test_fsa_complete :
    fsaStep nominal nominal.one (fsaAt .messageBody 31 0x017EA45B .malformed) (mbxWith .malformed false) =
        (fsaAt .idle 0 0 .new, mbxWith .new true) ∧
      fsaStep nominal nominal.zero (fsaAt .messageBody 31 0x017EA45B .new) (mbxWith .new false) =
        (fsaAt .malformed 0 0 .malformed, mbxWith .new false) := by decide
/-- V-FSA-16, V-FSA-17: LEAD before REP, ONE before ZERO. -/
theorem test_fsa_precedence :
    (fsaStep { nominal with margin := 2300 } (rising 18000 6750) (fsaAt .leadingPulse 0 0 .new) (mbxWith .new false)).1.state =
        .messageBody ∧
      (fsaStep { nominal with margin := 1200 } (rising 1125 2250) (fsaAt .messageBody 0 0 .new) (mbxWith .new false)).1.shift =
        1 := by decide
/-- V-RD-1 to V-RD-5, each as (Exact, Bitmask, ReverseBitmask, Ignore). -/
theorem test_accept :
    ([0x61D6, 0x8E40, 0x6196, 0xFFFF, 0x0000] : List (BitVec 16)).map (fun r =>
      [accept .exactMatch r 0x61D6, accept .bitmask r 0x61D6, accept .reverseBitmask r 0x61D6, accept .ignore r 0x61D6]) =
      [[true, true, true, true], [false, false, false, true], [false, false, false, true], [false, false, true, true],
        [false, false, false, true]] := by decide
/-- V-RD-6 to V-RD-9. -/
theorem test_read_result :
    readResult ⟨true, 0x61D6, .exactMatch⟩ [0x80108E40, 0x802261D6] = some 0x22 ∧
      readResult ⟨false, 0x02FD, .exactMatch⟩ [0x814802FD, 0x804802FD] = some 0x48 ∧
      readResult ⟨true, 0x02FD, .exactMatch⟩ [0x814802FD] = some 0x48 ∧
      readResult ⟨true, 0x0000, .ignore⟩ [0x00000000, 0x00000000] = none := by decide
/-- spec/45_reader.md R241. -/
theorem test_address_mode_of_code : AddressMode.ofCode 2 = .reverseBitmask ∧ AddressMode.ofCode 7 = .ignore := by decide

/-! ## The invariant, at concrete states -/

/-- The FSA at reset meets its invariant. -/
theorem fsa_inv_booted : booted.fsa.Inv := ⟨by decide, by decide, by decide⟩

theorem booted_valid : booted.params.Valid := by decide
theorem booted_last : PulseFits booted.params booted.last.pulse := by decide
theorem booted_mbx : booted.mbx.Inv := by decide
theorem booted_shapes :
    PulseFits booted.params booted.shapes.lead ∧ PulseFits booted.params booted.shapes.rep ∧
      PulseFits booted.params booted.shapes.one ∧ PulseFits booted.params booted.shapes.zero := by decide

/-- Receiving and transmitting at once, with anything staged that fits, meets the invariant. -/
theorem inv_of (c : Capture) (t : Tx) (l : List Stimulus) (hc : c.Inv Params.examples) (ht : t.Inv Params.examples) :
    State.Inv { booted with cap := c, tx := t, pending := l } :=
  ⟨booted_valid, hc, booted_last, fun _ => rfl, booted_shapes, fsa_inv_booted, booted_mbx, ht,
    fun _ => rfl, fun _ => rfl⟩

theorem waitStart_inv : booted.cap.Inv Params.examples :=
  ⟨by decide, by decide, by decide, by decide, by decide, by decide⟩
theorem inFirst_inv : (inFirst 10).cap.Inv Params.examples :=
  ⟨by decide, by decide, by decide, by decide, by decide, by decide⟩
theorem inSecond_inv : (inSecond 18000 9000).cap.Inv Params.examples :=
  ⟨by decide, by decide, by decide, by decide, by decide, by decide⟩
theorem staged_inv : (staged [rising 0 5, rising 1000 2000]).tx.Inv Params.examples :=
  ⟨by decide, by decide, by decide, by decide, by decide, by decide, by decide, by decide, by decide, by decide, by decide⟩
theorem playing_inv : (playing [rising 1000 2000]).tx.Inv Params.examples :=
  ⟨by decide, by decide, by decide, by decide, by decide, by decide, by decide, by decide, by decide, by decide, by decide⟩
theorem lastHalf_inv : (lastHalf [rising 1000 2000]).tx.Inv Params.examples :=
  ⟨by decide, by decide, by decide, by decide, by decide, by decide, by decide, by decide, by decide, by decide, by decide⟩

/-- A state that receives and transmits at once. -/
def busyState (l : List Stimulus) : State :=
  { booted with cap := (inSecond 18000 9000).cap, tx := (playing [rising 1000 2000]).tx, pending := l }

theorem busyState_inv (l : List Stimulus) : (busyState l).Inv := inv_of _ _ _ inSecond_inv playing_inv

theorem waiting_inv (l : List Stimulus) : (booted.setPending l).Inv :=
  inv_of booted.cap (booted.tx) l waitStart_inv
    ⟨by decide, by decide, by decide, by decide, by decide, by decide, by decide, by decide, by decide, by decide, by decide⟩

/-! ## Witnesses: each meets the hypotheses of the statement it is named after -/

theorem witness_ResetMeetsInvariant :
    Params.examples.Valid ∧ ({ w := 8, qCap := 1, sCap := 1, base := 128, pin0 := false } : Params).Valid ∧
      ({ w := 16, qCap := 32767, sCap := 65535, base := 0, pin0 := true } : Params).Valid := by decide

theorem witness_DecoderFollowsOpcodeTable : ∃ r ∈ opcodeRows, r.hits 0x20000006#32 = true := by decide

theorem witness_DecodeOfEncodeIsIdentity :
    (Instr.setClock 15 0xFFFFFF).wellFormed = true ∧ (Instr.setClock 15 0xFFFFFF).isCommand = true ∧
      (Instr.reserved 0xFFFFFFFF#32).wellFormed = true ∧ (Instr.reserved 0xFFFFFFFF#32).isCommand = true := by decide

theorem witness_IllegalWordIsBadCommand :
    illegalWord 0x00000001#32 = true ∧ illegalWord 0x0FFFFFFF#32 = true ∧ illegalWord 0x20000008#32 = true ∧
      illegalWord 0x30000002#32 = true ∧ illegalWord 0x60000000#32 = true ∧ illegalWord 0xFFFFFFFF#32 = true ∧
      illegalWord 0x5FFFFFFF#32 = true ∧ illegalWord 0x1FFFFFFF#32 = false ∧ illegalWord 0x20000007#32 = false ∧
      ∃ t, exec (decode 0x20000007#32) booted = .next t ∧ t.result = .ok := by
  refine ⟨by decide, by decide, by decide, by decide, by decide, by decide, by decide, by decide, by decide, _, rfl, rfl⟩

theorem witness_StepRunsDecodedCommand :
    booted.params.base % 4 = 0 ∧
      (booted.setPending [.hostWrite .word 0 0x40000000, .tick]).pending = [.hostWrite .word booted.params.base 0x40000000, .tick] ∧
      (booted.setPending [.tick]).pending = .tick :: [] ∧ (booted.setPending [.edge false]).pending = .edge false :: [] ∧
      0xFFFFFFFF < 2 ^ 32 := by decide

theorem witness_OnlyBadAccessesAreRefused :
    step (booted.setPending [.hostRead .byte 127]) = .refused .subWordAccess ∧
      step (booted.setPending [.hostWrite .word 125 0]) = .refused .misalignedAccess ∧
      (booted.params.base ≤ 127 ∧ 127 < booted.params.base + 128 ∧ Width.byte ≠ .word ∧ Width.half ≠ .word ∧ 127 % 4 ≠ 0) ∧
      (booted.params.base ≤ 0 ∧ 0 < booted.params.base + 128) ∧ (1 < booted.params.base + 128 ∧ 1 % 4 ≠ 0) :=
  ⟨rfl, rfl, by decide, by decide, by decide⟩

theorem witness_WhatIsNoStepChangesNothing :
    let s : State := { State.reset with params := { Params.examples with base := 128 } }
    124 + Width.word.bytes ≤ s.params.base ∧ s.params.base + 128 ≤ 256 ∧ s.clock.clkSet = false := by decide

theorem witness_StepKeepsInvariant :
    (busyState [.tick]).Inv ∧ ∃ t, step (busyState [.tick]) = .next t := ⟨busyState_inv _, _, rfl⟩

theorem witness_RegistersShowTheirFields : (busyState []).Inv := busyState_inv []

theorem witness_ReadsReturnRegisters : booted.params.base % 4 = 0 := by decide

theorem witness_OtherWritesAreIgnored :
    booted.params.base % 4 = 0 ∧ ∀ k ∈ [1, 8, 15, 18, 19, 21, 25, 27, 31], k < 32 ∧ k ∉ [0, 9, 10, 11, 12, 13, 14, 20, 26] := by
  decide

theorem witness_ShapeAndTxdWrites : booted.params.base % 4 = 0 := by decide

theorem witness_TxcfgWriteNeedsIdleQueue :
    (playing []).params.base % 4 = 0 ∧ 0 < (playing []).tx.queue.length ∧ booted.params.base % 4 = 0 ∧
      booted.tx.queue.length = 0 := by decide

theorem witness_NopReportsOk : (0x00000001#32 >>> 28).toNat = 0 ∧ 0x00000001#32 ≠ 0 ∧ (0x0FFFFFFF#32 >>> 28).toNat = 0 := by
  decide

theorem witness_SetClockEffect :
    (0x1FFFFFFF#32 >>> 28).toNat = 1 ∧ (0x10000000#32 >>> 28).toNat = 1 ∧ booted.cap.en = true ∧
      0 < (playing []).tx.queue.length ∧ State.reset.cap.en = false ∧ State.reset.tx.queue.length = 0 := by decide

/-- With an empty queue and CAP_CNT at its wrap in WaitStart; and with a train that does not match. -/
theorem witness_TickCountsBothCounters :
    let s := { booted with cap := { booted.cap with count := 0xFFFF } }
    let u := { playing [] with tx := { (playing []).tx with count := 100 } }
    (s.params.Valid ∧ s.clock.clkSet = true ∧ s.tx.queue.length = 0 ∧ s.cap.phase = .waitStart) ∧
      (u.params.Valid ∧ u.clock.clkSet = true ∧ (u.tx.count.toNat + 1) % 2 ^ u.params.w ≠ u.tx.cmp.toNat ∧
        u.cap.count.toNat + 1 ≠ 2 ^ u.params.w) := by decide

theorem witness_TickPartsCommute : (busyState []).clock.clkSet = true := by decide

theorem witness_OnlySetClockWritesClock :
    let s := State.reset.withFetchWord 32 0x10001F43
    s.params.Valid ∧ ∃ t, step s = .next t ∧ t.clock ≠ s.clock ∧ t.clock.clkSet = true :=
  ⟨by decide, _, rfl, by decide, by decide⟩

theorem witness_FailingCommandIsPrecise :
    Instr.txSend.isCommand = true ∧ ∃ t, exec .txSend State.reset = .next t ∧ t.result = .busNotConfigured :=
  ⟨rfl, _, rfl, rfl⟩

/-- A command for each code of the table. -/
theorem witness_ErrorCodesHaveTheirCauses :
    got (exec (.configReadStop true true) booted) (·.result) = some .readingStopped ∧
      got (exec (.configRead true true) State.reset) (·.result) = some .busNotConfigured ∧
      got (exec (.configRead false true) (inFirst 3)) (·.result) = some .busAlreadyRunning ∧
      got (exec .txSend { playing [rising 1 1] with params := { Params.examples with qCap := 1 } }) (·.result) = some .queueFull ∧
      got (exec (.reserved 0x60000000#32) booted) (·.result) = some .badCommand := by decide

theorem witness_OnlyCommandsWriteResult :
    Instr.nop.isCommand = true ∧ (∃ t, exec .tick booted = .next t) ∧ (∃ t, exec (.edge false) booted = .next t) ∧
      ∃ t, (booted.withFetchWord 32 0x60000000).params.Valid ∧ step (booted.withFetchWord 32 0x60000000) = .next t ∧
        t.result ≠ (booted.withFetchWord 32 0x60000000).result :=
  ⟨rfl, ⟨_, rfl⟩, ⟨_, rfl⟩, _, by decide, rfl, by decide⟩

theorem witness_InstructionFrames :
    (∃ t, exec .tick (busyState []) = .next t) ∧ (∃ t, exec (.edge false) (busyState []) = .next t) ∧
      (∃ t, exec .txSend (busyState []) = .next t) ∧ (∃ t, exec (.setClock 1 2) State.reset = .next t) ∧
      (∃ t, exec (.configRead true true) (busyState []) = .next t) ∧
      ∃ t, exec (.configReadStop true true) (busyState []) = .next t :=
  ⟨⟨_, rfl⟩, ⟨_, rfl⟩, ⟨_, rfl⟩, ⟨_, rfl⟩, ⟨_, rfl⟩, _, rfl⟩

theorem witness_ConfigReadEffect :
    0x20000007#32 &&& 0xFFFFFFF9#32 = 0x20000001#32 ∧ State.reset.clock.clkSet = false ∧
      ((inFirst 3).clock.clkSet = true ∧ (inFirst 3).cap.phase = .first ∧ false ≠ (inFirst 3).cap.idle ∧
        true = (inFirst 3).cap.idle) ∧
      ((inSecond 3 4).clock.clkSet = true ∧ (inSecond 3 4).cap.phase = .second) ∧
      (booted.clock.clkSet = true ∧ booted.cap.phase = .waitStart) := by decide

theorem witness_StopReadingEffect : 0x20000006#32 &&& 0xFFFFFFF9#32 = 0x20000000#32 := by decide

theorem witness_StartEdgeArmsCapture :
    State.reset.cap.phase = .off ∧ (booted.cap.phase = .waitStart ∧ (!booted.cap.pinIn) ≠ booted.cap.idle) ∧
      let low := { booted with cap := { booted.cap with pinIn := false } }
      low.cap.phase = .waitStart ∧ (!low.cap.pinIn) = low.cap.idle := by decide

theorem witness_ClosingEdgesRecordAndEmit :
    (State.Inv { booted with cap := (inFirst 10).cap, tx := (playing [rising 1000 2000]).tx, pending := [] } ∧
        (inFirst 10).cap.phase = .first) ∧
      (busyState []).Inv ∧ (busyState []).cap.phase = .second :=
  ⟨⟨inv_of _ _ _ inFirst_inv playing_inv, rfl⟩, busyState_inv _, rfl⟩

theorem witness_CaptureOverflowEmits :
    let idle := { booted with cap := { booted.cap with count := 0xFFFF } }
    (idle.params.Valid ∧ idle.clock.clkSet = true ∧ idle.cap.count.toNat + 1 = 2 ^ idle.params.w ∧
        idle.cap.phase = .waitStart) ∧
      ((inFirst 0xFFFF).params.Valid ∧ (inFirst 0xFFFF).clock.clkSet = true ∧
        (inFirst 0xFFFF).cap.count.toNat + 1 = 2 ^ (inFirst 0xFFFF).params.w ∧ (inFirst 0xFFFF).cap.phase = .first) ∧
      ((inSecond 1 0xFFFF).cap.count.toNat + 1 = 2 ^ (inSecond 1 0xFFFF).params.w ∧ (inSecond 1 0xFFFF).cap.phase = .second) := by
  decide

theorem witness_EmittedPulseMeasuresTicks :
    let s := booted.setPending (.edge false :: (List.replicate 2 .tick ++ .edge true :: (List.replicate 0 .tick ++ [.edge false])))
    s.Inv ∧ s.cap.phase = .waitStart ∧ s.cap.pinIn = s.cap.idle ∧ 2 < 2 ^ s.params.w ∧ 0 < 2 ^ s.params.w ∧
      s.pending = .edge (!s.cap.idle) :: (List.replicate 2 .tick ++ .edge s.cap.idle :: (List.replicate 0 .tick ++
        [.edge (!s.cap.idle)])) :=
  ⟨waiting_inv _, rfl, rfl, by decide, by decide, rfl⟩

theorem witness_UnendedHalfReadsOverflow :
    let s := booted.setPending (.edge false :: (List.replicate 65535 .tick ++ .edge true :: List.replicate (2 ^ 16) .tick))
    s.Inv ∧ s.cap.phase = .waitStart ∧ s.cap.pinIn = s.cap.idle ∧ 65535 < 2 ^ s.params.w ∧
      s.pending = .edge (!s.cap.idle) :: (List.replicate 65535 .tick ++ .edge s.cap.idle ::
        List.replicate (2 ^ s.params.w) .tick) :=
  ⟨waiting_inv _, rfl, rfl, by decide, rfl⟩

theorem witness_EdgeAndOverflowInEitherOrder :
    ∃ a b c d : State, (inSecond 5 0xFFFF).params.Valid ∧ (inSecond 5 0xFFFF).clock.clkSet = true ∧
      (inSecond 5 0xFFFF).cap.phase = .second ∧ (inSecond 5 0xFFFF).cap.pinIn = (inSecond 5 0xFFFF).cap.idle ∧
      (inSecond 5 0xFFFF).cap.count.toNat + 1 = 2 ^ (inSecond 5 0xFFFF).params.w ∧
      exec (.edge (!(inSecond 5 0xFFFF).cap.idle)) (inSecond 5 0xFFFF) = .next a ∧ exec .tick a = .next b ∧
      exec .tick (inSecond 5 0xFFFF) = .next c ∧ exec (.edge (!(inSecond 5 0xFFFF).cap.idle)) c = .next d :=
  ⟨_, _, _, _, by decide, rfl, rfl, rfl, by decide, rfl, rfl, rfl, rfl⟩

/-- The same with the pin in the first half. -/
theorem witness_EdgeAndOverflowInFirstHalf :
    ∃ a b c d : State, (inFirst 0xFFFF).params.Valid ∧ (inFirst 0xFFFF).clock.clkSet = true ∧
      (inFirst 0xFFFF).cap.phase = .first ∧ (inFirst 0xFFFF).cap.pinIn = (!(inFirst 0xFFFF).cap.idle) ∧
      (inFirst 0xFFFF).cap.count.toNat + 1 = 2 ^ (inFirst 0xFFFF).params.w ∧
      exec (.edge (inFirst 0xFFFF).cap.idle) (inFirst 0xFFFF) = .next a ∧ exec .tick a = .next b ∧
      exec .tick (inFirst 0xFFFF) = .next c ∧ exec (.edge (inFirst 0xFFFF).cap.idle) c = .next d :=
  ⟨_, _, _, _, by decide, rfl, rfl, rfl, by decide, rfl, rfl, rfl, rfl⟩

theorem witness_EventsIgnoreNcPscAndPeriod :
    Instr.tick.isCommand = false ∧ (∃ t, exec .tick (busyState []) = .next t) ∧ (Instr.edge false).isCommand = false ∧
      ∃ t, exec (.edge false) (busyState []) = .next t := ⟨rfl, ⟨_, rfl⟩, rfl, _, rfl⟩

theorem witness_StagingEffect :
    0x30000001#32 &&& 0xFFFFFFFE#32 = 0x30000000#32 ∧
      (let s : State := { staged [rising 1 1] with params := { Params.examples with sCap := 1 } };
        s.tx.stage.length = s.params.sCap) ∧
      booted.tx.stage.length ≠ booted.params.sCap := by decide

theorem witness_SendThatAppendsNothing :
    State.reset.clock.clkSet = false ∧ (booted.clock.clkSet = true ∧ booted.tx.stage = []) ∧
      let s : State := { playing [rising 1 1] with params := { Params.examples with qCap := 1 } }
      s.clock.clkSet = true ∧ s.tx.stage ≠ [] ∧ s.params.qCap < s.tx.queue.length + s.tx.stage.length := by decide

theorem witness_SendStartsTrain :
    let s := staged [rising 1125 3375]
    s.clock.clkSet = true ∧ s.tx.queue = [] ∧ s.tx.stage = rising 1125 3375 :: [] ∧ s.tx.stage.length ≤ s.params.qCap := by
  decide

/-- In the last half, and before it. -/
theorem witness_SendAppendsToTrain :
    let s := lastHalf [rising 1000 2000]
    let u := playing [rising 1000 2000]
    (s.clock.clkSet = true ∧ s.tx.queue ≠ [] ∧ s.tx.stage = rising 1000 2000 :: [] ∧
        s.tx.queue.length + s.tx.stage.length ≤ s.params.qCap ∧ s.tx.cursor.toNat + 1 = 2 * s.tx.queue.length) ∧
      (u.clock.clkSet = true ∧ u.tx.queue ≠ [] ∧ u.tx.stage = rising 1000 2000 :: [] ∧
        u.tx.queue.length + u.tx.stage.length ≤ u.params.qCap ∧ u.tx.cursor.toNat + 1 ≠ 2 * u.tx.queue.length) := by decide

/-- The last match of a train, and an earlier one. -/
theorem witness_CompareMatchAdvancesTrain :
    let s := lastHalf []
    let u := playing []
    (s.params.Valid ∧ s.clock.clkSet = true ∧ 0 < s.tx.queue.length ∧
        (s.tx.count.toNat + 1) % 2 ^ s.params.w = s.tx.cmp.toNat ∧ s.tx.cursor.toNat + 1 = 2 * s.tx.queue.length) ∧
      (u.params.Valid ∧ u.clock.clkSet = true ∧ 0 < u.tx.queue.length ∧
        (u.tx.count.toNat + 1) % 2 ^ u.params.w = u.tx.cmp.toNat ∧
        u.tx.queue[(u.tx.cursor.toNat + 1) / 2]? = some (rising 1125 3375) ∧
        u.tx.cursor.toNat + 1 < 2 * u.tx.queue.length) := by decide

theorem witness_QueueGrowsAndIsReleasedOnlySo :
    (∃ t, (booted.setPending [.tick]).params.Valid ∧ step ((lastHalf []).setPending [.tick]) = .next t ∧
        t.tx.queue ≠ ((lastHalf []).setPending [.tick]).tx.queue) ∧
      ∃ t, step ((staged [rising 1 1]).withFetchWord 32 0x40000000) = .next t ∧
        t.tx.queue ≠ ((staged [rising 1 1]).withFetchWord 32 0x40000000).tx.queue :=
  ⟨⟨_, by decide, rfl, by decide⟩, _, rfl, by decide⟩

/-- The state of the next three witnesses, transmitting with the given fields. -/
def transmitting (t : Tx) : State := { booted with cap := (inSecond 18000 9000).cap, tx := t, pending := [] }

theorem witness_TrainPlaysItsWaveform :
    let s := transmitting (staged [rising 0 5, rising 1000 2000]).tx
    s.Inv ∧ s.tx.queue = [] ∧ s.tx.stage ≠ [] ∧ ∃ t, exec .txSend s = .next t ∧ t.result = .ok :=
  ⟨inv_of _ _ _ inSecond_inv staged_inv, rfl, by decide, _, rfl, rfl⟩

theorem witness_AppendedTrainFollowsWithoutGap :
    (let s := transmitting (lastHalf [rising 1000 2000]).tx;
      s.Inv ∧ s.tx.queue ≠ [] ∧ s.tx.stage ≠ [] ∧ ∃ t, exec .txSend s = .next t ∧ t.result = .ok) ∧
      let u := transmitting (playing [rising 1000 2000]).tx;
      u.Inv ∧ u.tx.queue ≠ [] ∧ u.tx.stage ≠ [] ∧ ∃ t, exec .txSend u = .next t ∧ t.result = .ok :=
  ⟨⟨inv_of _ _ _ inSecond_inv lastHalf_inv, by decide, by decide, _, rfl, rfl⟩,
    inv_of _ _ _ inSecond_inv playing_inv, by decide, by decide, _, rfl, rfl⟩

/-- The states of a run in which only ticks pass. -/
def tickStates (s : State) (n : Nat) : State :=
  match n with
  | 0 => s
  | k + 1 => tickBoth (tickStates s k)

theorem tickStates_clkSet {s : State} (h : s.clock.clkSet = true) (n : Nat) : (tickStates s n).clock.clkSet = true := by
  induction n with
  | zero => exact h
  | succ n ih => simpa [tickStates, tickBoth] using ih

/-- A TICK makes the queue no longer. -/
theorem tickBoth_queue (s : State) : (tickBoth s).tx.queue.length ≤ s.tx.queue.length := by
  simp only [tickBoth, State.setTx_tx, tickCapture_tx, tickCapture_params]
  obtain h | h := (tickTx_frame s.params s.tx).2 <;> simp [h]

/-- The run in which only ticks pass. -/
def tickExecution (s : State) (h : s.clock.clkSet = true) : Execution where
  sched := fun _ => .tick
  states := tickStates s
  follows := fun n => by
    show execTick (tickStates s n) = _
    rw [execTick, if_pos (tickStates_clkSet h n)]
    rfl

theorem witness_TrainCompletesUnderFairTick :
    ∃ e : Execution, (e.states 0).Inv ∧ e.FairTick ∧
      (∀ n, (e.states (n + 1)).tx.queue.length ≤ (e.states n).tx.queue.length) ∧ (e.states 0).tx.busy = true :=
  ⟨tickExecution (busyState []) rfl, busyState_inv [], fun n _ => ⟨n, Nat.le_refl n, rfl⟩,
    fun n => tickBoth_queue (tickStates (busyState []) n), rfl⟩

theorem witness_IdleFsaConsumesAnyPulse :
    (fsaAt .idle 0 0 .new).state = .idle ∧ (fsaAt .malformed 0 0 .new).state = .malformed ∧
      (fsaAt .leadingPulse 0 0 .new).state = .leadingPulse ∧ (fsaAt .messageBody 0 0 .new).state = .messageBody := by decide

/-- A leading pulse, a repeat marker for a stored code that is and that is not malformed, and noise. -/
theorem witness_LeadingPulseStep :
    (fsaAt .leadingPulse 5 0x15 .new).state = .leadingPulse ∧ pulsesEqual (rising 18100 8800) nominal.lead nominal.margin = true ∧
      (pulsesEqual (rising 17900 4600) nominal.lead nominal.margin = false ∧
        pulsesEqual (rising 17900 4600) nominal.rep nominal.margin = true) ∧
      (fsaAt .leadingPulse 5 0x15 .new).stored.nov ≠ .malformed ∧
      (fsaAt .leadingPulse 5 0x15 .malformed).stored.nov = .malformed ∧
      (pulsesEqual nominal.one nominal.lead nominal.margin = false ∧ pulsesEqual nominal.one nominal.rep nominal.margin = false) := by
  decide

/-- A one, a zero and a bad bit; BITS at the end of its range. -/
theorem witness_MessageBodyStep :
    (fsaAt .messageBody 30 0 .new).state = .messageBody ∧ (fsaAt .messageBody 30 0 .new).bits.toNat < 31 ∧
      pulsesEqual nominal.one nominal.one nominal.margin = true ∧
      (pulsesEqual nominal.zero nominal.one nominal.margin = false ∧ pulsesEqual nominal.zero nominal.zero nominal.margin = true) ∧
      (pulsesEqual (rising 1125 65535) nominal.one nominal.margin = false ∧
        pulsesEqual (rising 1125 65535) nominal.zero nominal.margin = false) := by decide

/-- V-FSA-11 and V-FSA-13: a low byte that is, and one that is not, the complement. -/
theorem witness_ThirtySecondBitCompletes :
    (fsaAt .messageBody 31 0x017EA45B .new).state = .messageBody ∧ 31 ≤ (fsaAt .messageBody 31 0x017EA45B .new).bits.toNat ∧
      bitOf nominal nominal.one = some true ∧ (2 * 0x017EA45B + 1) % 2 ^ 32 % 2 ^ 8 = 255 - (0x48 : Byte).toNat ∧
      bitOf nominal nominal.zero = some false ∧ (2 * 0x7F + 0) % 2 ^ 32 % 2 ^ 8 ≠ 255 - (0x00 : Byte).toNat := by decide

/-- V-SRC-3, and V-SRC-5 for a code that is not accepted. -/
theorem witness_FrameFromLeadingPulseDecodes :
    (fsaAt .leadingPulse 0 0 .malformed).state = .leadingPulse ∧ pulsesEqual nominal.lead nominal.lead nominal.margin = true ∧
      ((codeBits 0x02FD48B7).map bitPulse).map (bitOf nominal) = (codeBits 0x02FD48B7).map some ∧
      ((codeBits 0x02FD48B6).map bitPulse).map (bitOf nominal) = (codeBits 0x02FD48B6).map some := by decide

/-- A repeat, whose one later pulse is its stop pulse, and a transmission with three noise pulses. -/
theorem witness_WellFormedTrafficFromIdleIsLost :
    (fsaAt .idle 0 0 .new).state = .idle ∧
      let ts := [(nominal.rep, [rising 1125 65535]), (nominal.lead, [nominal.one, nominal.zero, rising 1125 65535])]
      (∀ t ∈ ts, t.2.length % 2 = 1 ∧ ∀ p ∈ t.2, isNoise nominal p = true) ∧ ts ≠ [] := by decide

/-- A suppressed repeat (V-FSA-6). -/
theorem witness_SuppressionLastsUntilNew :
    (fsaAt .leadingPulse 0 0 .malformed).stored.nov = .malformed ∧
      ∀ qs, qs <+: [nominal.rep] →
        (fsaRun nominal qs (fsaAt .leadingPulse 0 0 .malformed) (mbxWith .malformed false)).1.stored.nov ≠ .new := by
  refine ⟨rfl, fun qs h => ?_⟩
  match qs, h with
  | [], _ => decide
  | [p], h =>
    have e : p = nominal.rep := by
      obtain ⟨r, hr⟩ := h
      exact (List.cons.inj hr).1
    subst e
    decide
  | _ :: _ :: _, h => exact absurd h.length_le (by simp)

theorem witness_FsaChangesOnlyOnEmission : ∃ t, step (busyState [.edge false]) = .next t := ⟨_, rfl⟩

/-- A repeat delivered by an edge, which changes the code and sets READY. -/
theorem witness_MalformedIsNeverDelivered :
    let s : State := { inSecond 18000 4500 with fsa := fsaAt .leadingPulse 0 0 .new, pending := [.edge false] }
    ∃ t, step s = .next t ∧ t.mbx.code ≠ s.mbx.code ∧ s.mbx.ready = false ∧ t.mbx.ready = true :=
  ⟨_, rfl, by decide, rfl, by decide⟩

theorem witness_ShiftRegisterChangesOnlyInMessageBody :
    let s : State := { inSecond 1125 3375 with fsa := fsaAt .messageBody 1 1 .new, pending := [.edge false] }
    ∃ t, step s = .next t ∧ t.fsa.bits ≠ s.fsa.bits ∧ t.fsa.shift ≠ s.fsa.shift := ⟨_, rfl, by decide, by decide⟩

theorem witness_AddressAcceptance : 3 < 4 := by decide

theorem witness_ReaderPollFollowsRead :
    ({ booted with reader := .waiting ⟨true, 0x61D6, .exactMatch⟩ } : State).reader = .waiting ⟨true, 0x61D6, .exactMatch⟩ := rfl

theorem witness_ReaderKeepsItsConfiguration :
    let c : ReaderConfig := ⟨true, 0x02FD, .exactMatch⟩
    let s : State := { booted with reader := .waiting c, mbx := mbxWith .new true, pending := [.readerPoll] }
    s.reader = .waiting c ∧ ∃ t, step s = .next t ∧ t.reader = .returned 0x48 := ⟨rfl, _, rfl, by decide⟩

end Sys2Proof.Tests
end

section
/-! SUPPORT. What one stimulus can do: it runs a command, it is an event, or it is a host access that runs none. Each
component of the state then has its one frame lemma per kind. -/

namespace Sys2Proof.Machine

/-- What a host access or a call or poll of the reader can lead to when it runs no command. -/
inductive HostEffect (s : State) : State → Prop where
  | nothing : HostEffect s s
  | read (r : Reg) : HostEffect s (readReg r s)
  | write (r : Reg) (v : Word) : HostEffect s (writeReg r v s)
  | readerOpen (c : ReaderConfig) : HostEffect s (readerOpen c s)
  | readerPoll : HostEffect s (readerPoll s)

/-- A stimulus runs the command that it writes to CMD, or is a TICK or an edge, or has only the effect of a host access. -/
theorem perform_cases {a : Stimulus} {s t : State} (h : perform a s = .next t) :
    (∃ w addr v, a = .hostWrite w addr v ∧ classify s.params w addr = .register .cmd ∧ exec (decode v) s = .next t) ∨
    (a = .tick ∧ exec .tick s = .next t) ∨ (∃ v, a = .edge v ∧ exec (.edge v) s = .next t) ∨ HostEffect s t := by
  cases a with
  | hostRead w addr =>
    obtain rfl | ⟨r, -, rfl⟩ := memRead_cases h
    · exact .inr (.inr (.inr .nothing))
    · exact .inr (.inr (.inr (.read r)))
  | hostWrite w addr v =>
    obtain rfl | ⟨hc, he⟩ | ⟨r, rfl⟩ := memWrite_cases h
    · exact .inr (.inr (.inr .nothing))
    · exact .inl ⟨w, addr, v, rfl, hc, he⟩
    · exact .inr (.inr (.inr (.write r v)))
  | readerOpen c => cases h; exact .inr (.inr (.inr (.readerOpen c)))
  | readerPoll => cases h; exact .inr (.inr (.inr .readerPoll))
  | tick => exact .inr (.inl ⟨rfl, h⟩)
  | edge v => exact .inr (.inr (.inl ⟨v, rfl, h⟩))

/-! The frame of the host accesses that run no command. -/

/-- A read of a register leaves every field of the block but READY as it was. -/
theorem readReg_frame (r : Reg) (s : State) :
    (readReg r s).params = s.params ∧ (readReg r s).result = s.result ∧ (readReg r s).clock = s.clock ∧
      (readReg r s).cap = s.cap ∧ (readReg r s).last = s.last ∧ (readReg r s).shapes = s.shapes ∧
      (readReg r s).fsa = s.fsa ∧ (readReg r s).tx = s.tx := by
  obtain e | e := readReg_eq r s <;> rw [e] <;> exact ⟨rfl, rfl, rfl, rfl, rfl, rfl, rfl, rfl⟩

/-- A write of a register other than CMD changes the shapes or the transmit fields at most. -/
theorem writeReg_frame (r : Reg) (v : Word) (s : State) :
    (writeReg r v s).params = s.params ∧ (writeReg r v s).result = s.result ∧ (writeReg r v s).clock = s.clock ∧
      (writeReg r v s).cap = s.cap ∧ (writeReg r v s).last = s.last ∧ (writeReg r v s).fsa = s.fsa ∧
      (writeReg r v s).mbx = s.mbx := by
  obtain e | ⟨h, e⟩ | e | e := writeReg_eq r v s <;> rw [e] <;> exact ⟨rfl, rfl, rfl, rfl, rfl, rfl, rfl⟩

/-- A host access that runs no command leaves RESULT, the clock, the capture fields, LAST_PULSE and the FSA. -/
theorem HostEffect.frame {s t : State} (h : HostEffect s t) :
    t.params = s.params ∧ t.result = s.result ∧ t.clock = s.clock ∧ t.cap = s.cap ∧ t.last = s.last ∧ t.fsa = s.fsa := by
  cases h with
  | nothing => exact ⟨rfl, rfl, rfl, rfl, rfl, rfl⟩
  | read r =>
    obtain ⟨hp, hr, hc, hcap, hl, -, hf, -⟩ := readReg_frame r s
    exact ⟨hp, hr, hc, hcap, hl, hf⟩
  | write r v =>
    obtain ⟨hp, hr, hc, hcap, hl, hf, -⟩ := writeReg_frame r v s
    exact ⟨hp, hr, hc, hcap, hl, hf⟩
  | readerOpen c =>
    obtain e | ⟨-, e⟩ := readerOpen_eq c s <;> rw [e] <;> exact ⟨rfl, rfl, rfl, rfl, rfl, rfl⟩
  | readerPoll =>
    obtain ⟨hp, hr, hc, hcap, hl, -, hf, -⟩ := readReg_frame .mbxCode s
    obtain e | ⟨c, -, ⟨-, e⟩ | ⟨cmd, -, e⟩⟩ := readerPoll_eq s <;> rw [e]
    · exact ⟨rfl, rfl, rfl, rfl, rfl, rfl⟩
    · exact ⟨hp, hr, hc, hcap, hl, hf⟩
    · exact ⟨hp, hr, hc, hcap, hl, hf⟩

/-! The frame of the instructions. -/

/-- Only an accepted SET_CLOCK writes the clock. -/
theorem exec_clock {i : Instr} {s t : State} (h : exec i s = .next t) :
    t.clock = s.clock ∨
      ∃ psc period, i = .setClock psc period ∧ clockBusy s = false ∧
        t.clock = { psc := psc, clkSet := true, period := period } := by
  cases i with
  | setClock psc period =>
    obtain ⟨-, rfl⟩ | ⟨hb, rfl⟩ := setClock_cases h
    · exact .inl rfl
    · exact .inr ⟨psc, period, rfl, hb, rfl⟩
  | configRead idle nc =>
    left; obtain ⟨-, rfl⟩ | ⟨-, -, -, rfl⟩ | ⟨-, -, -, rfl⟩ | ⟨-, -, rfl⟩ := configRead_cases h <;> rfl
  | txPush type => left; obtain ⟨-, rfl⟩ | ⟨-, rfl⟩ := txPush_cases h <;> rfl
  | txSend =>
    left; obtain ⟨-, rfl⟩ | ⟨-, -, rfl⟩ | ⟨-, -, -, rfl⟩ | ⟨-, -, -, rfl⟩ := txSend_cases h <;> rfl
  | tick =>
    left
    obtain ⟨-, rfl⟩ | ⟨-, rfl⟩ := tick_cases h
    · rfl
    · simp
  | edge v =>
    left
    obtain ⟨-, rfl⟩ | ⟨-, -, rfl⟩ | ⟨-, -, -, rfl⟩ | ⟨-, -, -, rfl⟩ | ⟨-, -, rfl⟩ | ⟨-, -, rfl⟩ := edge_cases h <;> rfl
  | nop => cases h; exact .inl rfl
  | configReadStop idle nc => cases h; exact .inl rfl
  | txClearStage => cases h; exact .inl rfl
  | reserved w => cases h; exact .inl rfl

/-- No event writes RESULT. -/
theorem tick_result {s t : State} (h : exec .tick s = .next t) : t.result = s.result := by
  obtain ⟨-, rfl⟩ | ⟨-, rfl⟩ := tick_cases h
  · rfl
  · simp

theorem edge_result {v : Level} {s t : State} (h : exec (.edge v) s = .next t) : t.result = s.result := by
  obtain ⟨-, rfl⟩ | ⟨-, -, rfl⟩ | ⟨-, -, -, rfl⟩ | ⟨-, -, -, rfl⟩ | ⟨-, -, rfl⟩ | ⟨-, -, rfl⟩ := edge_cases h <;> rfl

/-- The block consumes a pulse: LAST_PULSE records it and the FSA takes it. -/
def Emitted (s t : State) : Prop :=
  ∃ p, t.last = { pulse := p, valid := true, pcount := s.last.pcount + 1 } ∧
    t.fsa = (fsaStep s.shapes p s.fsa s.mbx).1 ∧ t.mbx = (fsaStep s.shapes p s.fsa s.mbx).2

/-- No pulse is consumed: LAST_PULSE, the FSA and the mailbox stay. -/
def Quiet (s t : State) : Prop := t.last = s.last ∧ t.fsa = s.fsa ∧ t.mbx = s.mbx

/-- A TICK consumes one pulse or none. -/
theorem tick_quiet_or_emitted {s t : State} (h : exec .tick s = .next t) : Quiet s t ∨ Emitted s t := by
  obtain ⟨-, rfl⟩ | ⟨-, rfl⟩ := tick_cases h
  · exact .inl ⟨rfl, rfl, rfl⟩
  · obtain ⟨e, -⟩ | ⟨-, -, e⟩ | ⟨-, -, e⟩ := tickCapture_cases s <;> rw [e]
    · exact .inl ⟨rfl, rfl, rfl⟩
    · exact .inr ⟨_, rfl, rfl, rfl⟩
    · exact .inr ⟨_, rfl, rfl, rfl⟩

/-- An edge consumes one pulse or none. -/
theorem edge_quiet_or_emitted {v : Level} {s t : State} (h : exec (.edge v) s = .next t) : Quiet s t ∨ Emitted s t := by
  obtain ⟨-, rfl⟩ | ⟨-, -, rfl⟩ | ⟨-, -, -, rfl⟩ | ⟨-, -, -, rfl⟩ | ⟨-, -, rfl⟩ | ⟨-, -, rfl⟩ := edge_cases h
  · exact .inl ⟨rfl, rfl, rfl⟩
  · exact .inl ⟨rfl, rfl, rfl⟩
  · exact .inl ⟨rfl, rfl, rfl⟩
  · exact .inl ⟨rfl, rfl, rfl⟩
  · exact .inl ⟨rfl, rfl, rfl⟩
  · exact .inr ⟨_, rfl, rfl, rfl⟩

/-- A word never decodes to an event. -/
theorem decode_isCommand (w : Word) : (decode w).isCommand = true := by
  unfold decode
  repeat' split
  all_goals rfl

/-- No command consumes a pulse. -/
theorem command_quiet {i : Instr} (hi : i.isCommand = true) {s t : State} (h : exec i s = .next t) : Quiet s t := by
  cases i with
  | setClock psc period => obtain ⟨-, rfl⟩ | ⟨-, rfl⟩ := setClock_cases h <;> exact ⟨rfl, rfl, rfl⟩
  | configRead idle nc =>
    obtain ⟨-, rfl⟩ | ⟨-, -, -, rfl⟩ | ⟨-, -, -, rfl⟩ | ⟨-, -, rfl⟩ := configRead_cases h <;> exact ⟨rfl, rfl, rfl⟩
  | txPush type => obtain ⟨-, rfl⟩ | ⟨-, rfl⟩ := txPush_cases h <;> exact ⟨rfl, rfl, rfl⟩
  | txSend =>
    obtain ⟨-, rfl⟩ | ⟨-, -, rfl⟩ | ⟨-, -, -, rfl⟩ | ⟨-, -, -, rfl⟩ := txSend_cases h <;> exact ⟨rfl, rfl, rfl⟩
  | nop => cases h; exact ⟨rfl, rfl, rfl⟩
  | configReadStop idle nc => cases h; exact ⟨rfl, rfl, rfl⟩
  | txClearStage => cases h; exact ⟨rfl, rfl, rfl⟩
  | reserved w => cases h; exact ⟨rfl, rfl, rfl⟩
  | tick => exact absurd hi (by decide)
  | edge v => exact absurd hi (by simp [Instr.isCommand])

end Sys2Proof.Machine
end

section
/-! SUPPORT. The invariant of the block, component by component: what an update has to meet to keep it. -/

namespace Sys2Proof.Machine

/-! The rules for the updates of the state. -/

section Updates
variable {s : State} (h : s.Inv)
include h

/-! The invariant does not speak of RESULT, the host's word, the reader and the stimuli still to come. -/

theorem State.Inv.setResult (v : Status) : (s.setResult v).Inv := { h with }
theorem State.Inv.setHostData (w : Word) : (s.setHostData w).Inv := { h with }
theorem State.Inv.setReader (r : Reader) : (s.setReader r).Inv := { h with }
theorem State.Inv.setPending (l : List Stimulus) : (s.setPending l).Inv := { h with }

theorem State.Inv.setCap {c : Capture} (hc : c.Inv s.params) (hen : c.en = true → s.clock.clkSet = true) :
    (s.setCap c).Inv := { h with cap := hc, enClk := hen }

theorem State.Inv.setTx {tx : Tx} (ht : tx.Inv s.params) (hb : tx.busy = true → s.clock.clkSet = true) :
    (s.setTx tx).Inv := { h with tx := ht, busyClk := hb }

theorem State.Inv.setMbx {m : Mailbox} (hm : m.Inv) : (s.setMbx m).Inv := { h with mbx := hm }

/-- Setting CLK_SET cannot break R54 (b) or (d). -/
theorem State.Inv.setClock {c : Clock} (hc : c.clkSet = true) : (s.setClock c).Inv :=
  { h with enClk := fun _ => hc, busyClk := fun _ => hc }

/-- A pulse of W-bit halves keeps the invariant when it is emitted. -/
theorem State.Inv.emit {p : Pulse} (hp : PulseFits s.params p) : (emit p s).Inv :=
  { h with
    lastFits := hp
    lastNone := fun hv => absurd hv (by simp)
    fsa := fsaStep_inv _ _ _ _ h.fsa
    mbx := fsaStep_mailbox_inv _ _ _ _ h.mbx }

end Updates

/-! The capture fields. -/

/-- With no half pending, nothing is known of the pin and the type of the pulse. -/
theorem Capture.Inv.of_not_pending {p : Params} {c : Capture} (hn : HalfFits p c.count) (hf : HalfFits p c.first)
    (hen : c.en = false ↔ c.phase = .off) (hph : c.phase.halfPending = false) : c.Inv p where
  countFits := hn
  firstFits := hf
  enabled := hen
  pinFirst e := by simp [e, Phase.halfPending] at hph
  pinSecond e := by simp [e, Phase.halfPending] at hph
  typePending e := by simp [e] at hph

/-- A phase other than Off means that capture is enabled. -/
theorem Capture.Inv.en_of_phase {p : Params} {c : Capture} (h : c.Inv p) (hph : c.phase ≠ .off) : c.en = true := by
  by_contra he
  exact hph (h.enabled.1 (by simpa using he))

end Sys2Proof.Machine
end

section
/-! SUPPORT. The invariant of the block: every instruction and every host access keeps it. -/

namespace Sys2Proof.Machine

/-- A stage that is not full takes one more pulse of W-bit halves. -/
theorem Tx.Inv.push {p : Params} {tx : Tx} (h : tx.Inv p) {x : Pulse} (hx : PulseFits p x)
    (hlen : tx.stage.length ≠ p.sCap) : Tx.Inv p { tx with stage := tx.stage ++ [x] } :=
  { h with
    stageFits := fun y hy => (List.mem_append.1 hy).elim (h.stageFits y) fun hy => List.mem_singleton.1 hy ▸ hx
    stageCap := by have := h.stageCap; simp only [List.length_append, List.length_singleton]; omega }

section Instructions
variable {s t : State} (h : s.Inv)
include h

theorem setClock_inv {psc : BitVec 4} {period : BitVec 24} (e : exec (.setClock psc period) s = .next t) : t.Inv := by
  obtain ⟨-, rfl⟩ | ⟨-, rfl⟩ := setClock_cases e
  · exact h.setResult _
  · have hcap : Capture.Inv s.params { s.cap with count := 0 } := { h.cap with countFits := modulus_pos _ }
    have htx : Tx.Inv s.params { s.tx with count := 0 } := { h.tx with countFits := modulus_pos _ }
    have hclk := h.setClock (c := { psc := psc, clkSet := true, period := period }) rfl
    exact ((hclk.setCap hcap fun _ => rfl).setTx htx fun _ => rfl).setResult _

theorem configRead_inv {idle nc : Bool} (e : exec (.configRead idle nc) s = .next t) : t.Inv := by
  obtain ⟨-, rfl⟩ | ⟨-, -, -, rfl⟩ | ⟨hclk, hph, -, rfl⟩ | ⟨hclk, -, rfl⟩ := configRead_cases e
  · exact h.setResult _
  · exact h.setResult _
  · have hoff : s.cap.phase ≠ .off := fun e => by simp [e, Phase.halfPending] at hph
    have hcap : Capture.Inv s.params { s.cap with nc := nc, en := true } :=
      { h.cap with enabled := by simp [hoff] }
    exact (h.setCap hcap fun _ => hclk).setResult _
  · have hcap : Capture.Inv s.params { s.cap with phase := .waitStart, idle := idle, nc := nc, en := true } :=
      .of_not_pending h.cap.countFits h.cap.firstFits (by simp) rfl
    exact (h.setCap hcap fun _ => hclk).setResult _

theorem configReadStop_inv {idle nc : Bool} (e : exec (.configReadStop idle nc) s = .next t) : t.Inv := by
  cases e
  have hcap : Capture.Inv s.params { s.cap with en := false, phase := .off, first := 0 } :=
    .of_not_pending h.cap.countFits (modulus_pos _) (by simp) rfl
  exact (h.setCap hcap (by simp)).setResult _

theorem txPush_inv {type : EdgeType} (e : exec (.txPush type) s = .next t) : t.Inv := by
  obtain ⟨-, rfl⟩ | ⟨hlen, rfl⟩ := txPush_cases e
  · exact h.setResult _
  · have hp := h.paramsValid
    exact (h.setTx (h.tx.push ⟨lowW_fits hp _, lowW_fits hp _⟩ hlen) h.busyClk).setResult _

theorem txClearStage_inv (e : exec .txClearStage s = .next t) : t.Inv := by
  cases e
  have htx : Tx.Inv s.params { s.tx with stage := [] } :=
    { h.tx with stageFits := by simp, stageCap := Nat.zero_le _ }
  exact (h.setTx htx h.busyClk).setResult _

theorem txSend_inv (e : exec .txSend s = .next t) : t.Inv := by
  obtain ⟨-, rfl⟩ | ⟨-, -, rfl⟩ | ⟨-, -, -, rfl⟩ | ⟨hclk, hs, hcap, rfl⟩ := txSend_cases e
  · exact h.setResult _
  · exact h.setResult _
  · exact h.setResult _
  · exact (h.setTx (sendStage_inv h.paramsValid h.tx hs hcap) fun _ => hclk).setResult _

/-- The capture part of a TICK: an overflow emits a pulse of W-bit halves, and no half is pending after it. -/
theorem tickCapture_inv : (tickCapture s).Inv := by
  have hp := h.paramsValid
  have hcount := wrap_fits hp (s.cap.count.toNat + 1)
  have hwait (hph : s.cap.phase ≠ .off) :
      (s.setCap { s.cap with count := wrap s.params (s.cap.count.toNat + 1), phase := .waitStart }).Inv :=
    h.setCap (.of_not_pending hcount h.cap.firstFits (by simp [h.cap.en_of_phase hph]) rfl) h.enClk
  obtain ⟨e, -⟩ | ⟨hph, -, e⟩ | ⟨hph, -, e⟩ := tickCapture_cases s <;> rw [e]
  · exact h.setCap { h.cap with countFits := hcount } h.enClk
  · exact (hwait (by simp [hph])).emit ⟨overflow_fits hp, overflow_fits hp⟩
  · exact (hwait (by simp [hph])).emit ⟨h.cap.firstFits, overflow_fits hp⟩

theorem tick_inv (e : exec .tick s = .next t) : t.Inv := by
  obtain ⟨-, rfl⟩ | ⟨hclk, rfl⟩ := tick_cases e
  · exact h
  · refine (tickCapture_inv h).setTx ?_ fun _ => by simpa using hclk
    rw [tickCapture_params]
    exact tickTx_inv h.paramsValid h.tx

/-- An edge: the pin leaves the level it had, so the level of the pin in the next phase follows from the one before. -/
theorem edge_inv {v : Level} (e : exec (.edge v) s = .next t) : t.Inv := by
  have hen := h.cap.en_of_phase
  obtain ⟨-, rfl⟩ | ⟨-, hph, rfl⟩ | ⟨-, hph, -, rfl⟩ | ⟨-, hph, hv, rfl⟩ | ⟨hv, hph, rfl⟩ | ⟨hv, hph, rfl⟩ := edge_cases e
  · exact h
  · exact h.setCap
      (.of_not_pending h.cap.countFits h.cap.firstFits h.cap.enabled (by simp [hph, Phase.halfPending])) h.enClk
  · exact h.setCap
      (.of_not_pending h.cap.countFits h.cap.firstFits h.cap.enabled (by simp [hph, Phase.halfPending])) h.enClk
  · refine h.setCap ?_ h.enClk
    exact
      { countFits := modulus_pos _, firstFits := h.cap.firstFits, enabled := by simp [hen, hph],
        pinFirst := fun _ => hv, pinSecond := by simp, typePending := fun _ => rfl }
  · refine h.setCap ?_ h.enClk
    have hpin := h.cap.pinFirst hph
    exact
      { countFits := modulus_pos _, firstFits := h.cap.countFits, enabled := by simp [hen, hph],
        pinFirst := by simp, pinSecond := fun _ => by simp [hv, hpin],
        typePending := fun _ => h.cap.typePending (by rw [hph]; rfl) }
  · have hpin := h.cap.pinSecond hph
    have hcap : Capture.Inv s.params { s.cap with pinIn := v, count := 0, phase := .first } :=
      { countFits := modulus_pos _, firstFits := h.cap.firstFits, enabled := by simp [hen, hph],
        pinFirst := fun _ => by simp [hv, hpin], pinSecond := by simp,
        typePending := fun _ => h.cap.typePending (by rw [hph]; rfl) }
    exact (h.setCap hcap h.enClk).emit ⟨h.cap.firstFits, h.cap.countFits⟩

/-- Every instruction keeps the invariant. -/
theorem exec_inv {i : Instr} (e : exec i s = .next t) : t.Inv := by
  cases i with
  | nop => cases e; exact h.setResult _
  | setClock psc period => exact setClock_inv h e
  | configRead idle nc => exact configRead_inv h e
  | configReadStop idle nc => exact configReadStop_inv h e
  | txPush type => exact txPush_inv h e
  | txSend => exact txSend_inv h e
  | txClearStage => exact txClearStage_inv h e
  | tick => exact tick_inv h e
  | edge v => exact edge_inv h e
  | reserved w => cases e; exact h.setResult _

end Instructions

@[simp] theorem writeTxcfg_busy (v : Word) (tx : Tx) : (writeTxcfg v tx).busy = tx.busy := by
  unfold writeTxcfg
  split <;> rfl

section Accesses
variable {s t : State} (h : s.Inv)
include h

theorem readReg_inv (r : Reg) : (readReg r s).Inv := by
  obtain e | e := readReg_eq r s <;> rw [e]
  · exact h.setHostData _
  · exact (h.setHostData _).setMbx (by simp)

/-- The shapes are masked to W bits as they are written, whichever register is written. -/
theorem writeReg_inv (r : Reg) (v : Word) : (writeReg r v s).Inv := by
  have hp := h.paramsValid
  have hshapes := writeReg_shapesFit r v s hp h.shapesFit
  obtain e | ⟨_, e⟩ | e | e := writeReg_eq r v s <;> rw [e] at hshapes ⊢
  · exact h
  · exact { h with shapesFit := hshapes }
  · exact h.setTx (writeTxcfg_inv h.tx v) (by simpa using h.busyClk)
  · exact h.setTx { h.tx with txdFits := ⟨lowW_fits hp _, lowW_fits hp _⟩ } h.busyClk

theorem HostEffect.inv (e : HostEffect s t) : t.Inv := by
  cases e with
  | nothing => exact h
  | read r => exact readReg_inv h r
  | write r v => exact writeReg_inv h r v
  | readerOpen c =>
    obtain e | ⟨-, e⟩ := readerOpen_eq c s <;> rw [e]
    · exact h
    · exact h.setReader _
  | readerPoll =>
    obtain e | ⟨c, -, ⟨-, e⟩ | ⟨cmd, -, e⟩⟩ := readerPoll_eq s <;> rw [e]
    · exact h
    · exact readReg_inv h _
    · exact (readReg_inv h _).setReader _

/-- Every stimulus keeps the invariant. -/
theorem perform_inv {a : Stimulus} (e : perform a s = .next t) : t.Inv := by
  obtain ⟨_, _, _, -, -, e⟩ | ⟨-, e⟩ | ⟨v, -, e⟩ | e := perform_cases e
  · exact exec_inv h e
  · exact exec_inv h e
  · exact exec_inv h e
  · exact e.inv h

end Accesses

/-- Settles O11: a step is a stimulus on the state with that stimulus taken off, and every stimulus keeps the invariant. -/
theorem stepKeepsInvariant : Obligations.StepKeepsInvariant := by
  intro s t h e
  obtain ⟨-, rfl⟩ | ⟨a, rest, -, e⟩ := step_cases e
  · exact h
  · exact perform_inv (h.setPending rest) e

/-- Settles O2: every field is at its reset value, which is in range and meets R54. -/
theorem resetMeetsInvariant : Obligations.ResetMeetsInvariant := by
  have hreset (p : Params) (hp : p.Valid) : (State.resetWith p).Inv := by
    have h0 : HalfFits p 0 := modulus_pos p
    exact
      { paramsValid := hp
        cap := .of_not_pending h0 h0 (by simp [State.resetWith]) rfl
        lastFits := ⟨h0, h0⟩
        lastNone := fun _ => rfl
        shapesFit := ⟨⟨h0, h0⟩, ⟨h0, h0⟩, ⟨h0, h0⟩, ⟨h0, h0⟩⟩
        fsa := ⟨by simp [State.resetWith], by simp [State.resetWith], by simp [State.resetWith]⟩
        mbx := by simp [State.resetWith]
        tx :=
          { countFits := h0, cmpFits := h0, txdFits := ⟨h0, h0⟩, queueFits := by simp [State.resetWith],
            stageFits := by simp [State.resetWith], queueCap := Nat.zero_le _, stageCap := Nat.zero_le _,
            cursorBusy := by simp [State.resetWith], quietIdle := fun _ => ⟨rfl, rfl⟩,
            pinPlays := by simp [State.resetWith], preselNext := by simp [State.resetWith] }
        enClk := by simp [State.resetWith]
        busyClk := by simp [State.resetWith] }
  exact ⟨hreset, hreset _ (by decide)⟩

end Sys2Proof.Machine
end

section
/-! SUPPORT and proofs: what only a command, or only a pulse, changes. -/

namespace Sys2Proof.Machine

/-- BASE is a multiple of 128, so it is word-aligned. -/
theorem base_aligned {p : Params} (hp : p.Valid) : p.base % 4 = 0 := by
  obtain ⟨-, -, -, -, -, -, hb⟩ := hp
  omega

/-- What one step does with valid parameters: it runs the command that the next stimulus writes to CMD, or it keeps RESULT
and the clock. -/
theorem step_command_or_keeps {s t : State} (hp : s.params.Valid) (h : step s = .next t) :
    (∃ v, s.pending.head? = some (.hostWrite .word s.params.base v) ∧
      exec (decode v) (s.setPending s.pending.tail) = .next t) ∨
    (t.result = s.result ∧ t.clock = s.clock) := by
  obtain ⟨-, rfl⟩ | ⟨a, rest, hpend, h⟩ := step_cases h
  · exact .inr ⟨rfl, rfl⟩
  · obtain ⟨w, addr, v, rfl, hc, he⟩ | ⟨-, he⟩ | ⟨v, -, he⟩ | he := perform_cases h
    · obtain ⟨rfl, rfl⟩ := classify_cmd (base_aligned hp) hc
      exact .inl ⟨v, by rw [hpend]; rfl, by rw [hpend]; exact he⟩
    · have hclk : t.clock = s.clock := (exec_clock he).resolve_right (by simp)
      have hr := tick_result he
      exact .inr ⟨hr, hclk⟩
    · have hclk : t.clock = s.clock := (exec_clock he).resolve_right (by simp)
      have hr := edge_result he
      exact .inr ⟨hr, hclk⟩
    · obtain ⟨-, hr, hclk, -⟩ := he.frame
      exact .inr ⟨hr, hclk⟩

/-- Settles O21: only a command can change the clock, and of the commands only an accepted SET_CLOCK, which sets CLK_SET. -/
theorem onlySetClockWritesClock : Obligations.OnlySetClockWritesClock := by
  intro s t hp h
  obtain ⟨v, hv, he⟩ | ⟨-, hclk⟩ := step_command_or_keeps hp h
  · obtain hclk | ⟨psc, period, hi, hb, hclk⟩ := exec_clock he
    · exact ⟨fun hs => by simpa [hclk] using hs, fun hne => absurd hclk hne⟩
    · have hbusy : s.cap.en = false ∧ s.tx.busy = false := by simpa [clockBusy] using hb
      obtain ⟨hen, htx⟩ := hbusy
      exact ⟨fun _ => by rw [hclk], fun _ => ⟨v, psc, period, hv, hi, hen, (not_busy_iff _).1 htx, hclk⟩⟩
  · exact ⟨fun hs => by rw [hclk, hs], fun hne => absurd hclk hne⟩

/-- Every command overwrites RESULT without reading it. -/
theorem command_ignores_result {i : Instr} (hi : i.isCommand = true) (s : State) (r : Status) :
    exec i { s with result := r } = exec i s := by
  cases i with
  | nop => rfl
  | setClock psc period => rfl
  | configRead idle nc => rfl
  | configReadStop idle nc => rfl
  | txPush type => rfl
  | txSend => rfl
  | txClearStage => rfl
  | reserved w => rfl
  | tick => exact absurd hi (by decide)
  | edge v => exact absurd hi (by simp [Instr.isCommand])

/-- Settles O25: commands overwrite RESULT, events keep it, and a step that changes it ran a command. -/
theorem onlyCommandsWriteResult : Obligations.OnlyCommandsWriteResult := by
  refine ⟨fun i s r hi => command_ignores_result hi s r, fun _ _ => tick_result, fun _ _ _ => edge_result, ?_⟩
  intro s t hp h hne
  obtain ⟨v, hv, he⟩ | ⟨hr, -⟩ := step_command_or_keeps hp h
  · exact ⟨v, hv, he⟩
  · exact absurd hr hne

/-- A pulse changes the shift register only on LEAD, which clears it, or in MessageBody. -/
theorem fsaStep_shift_register (h : Shapes) (p : Pulse) (f : Fsa) (m : Mailbox) :
    ((fsaStep h p f m).1.bits = f.bits ∧ (fsaStep h p f m).1.shift = f.shift) ∨
    (f.state = .leadingPulse ∧ (fsaStep h p f m).1.state = .messageBody ∧ (fsaStep h p f m).1.bits = 0 ∧
      (fsaStep h p f m).1.shift = 0) ∨
    f.state = .messageBody := by
  obtain ⟨e, -⟩ | ⟨e, hst⟩ | ⟨e, -⟩ | ⟨e, -⟩ | ⟨b, -, hst, -⟩ | ⟨b, -, hst, -⟩ := fsaStep_cases h p f m
  · left; rw [e]; exact ⟨rfl, rfl⟩
  · right; left; rw [e]; exact ⟨hst, rfl, rfl, rfl⟩
  · left; rw [e]; unfold repeatPath; split <;> exact ⟨rfl, rfl⟩
  · left; rw [e]; exact ⟨rfl, rfl⟩
  · exact .inr (.inr hst)
  · exact .inr (.inr hst)

/-- A step consumes one pulse, or leaves LAST_PULSE and the FSA as they were. -/
theorem step_quiet_or_emitted {s t : State} (h : step s = .next t) :
    (t.last = s.last ∧ t.fsa = s.fsa) ∨ Emitted s t := by
  obtain ⟨-, rfl⟩ | ⟨a, rest, -, h⟩ := step_cases h
  · exact .inl ⟨rfl, rfl⟩
  · obtain ⟨_, _, v, -, -, he⟩ | ⟨-, he⟩ | ⟨v, -, he⟩ | he := perform_cases h
    · obtain ⟨hl, hf, -⟩ := command_quiet (decode_isCommand v) he
      exact .inl ⟨hl, hf⟩
    · exact (tick_quiet_or_emitted he).imp_left fun ⟨hl, hf, _⟩ => ⟨hl, hf⟩
    · exact (edge_quiet_or_emitted he).imp_left fun ⟨hl, hf, _⟩ => ⟨hl, hf⟩
    · obtain ⟨-, -, -, -, hl, hf⟩ := he.frame
      exact .inl ⟨hl, hf⟩

/-- Settles O56: only a pulse that the FSA consumes can change the register, and it does so on LEAD or in MessageBody. -/
theorem shiftRegisterChangesOnlyInMessageBody : Obligations.ShiftRegisterChangesOnlyInMessageBody := by
  intro s t h hne
  obtain ⟨-, hf⟩ | ⟨p, hl, hf, -⟩ := step_quiet_or_emitted h
  · simp [hf] at hne
  · rw [hf] at hne ⊢
    obtain ⟨hb, hs⟩ | hlead | hbody := fsaStep_shift_register s.shapes p s.fsa s.mbx
    · simp [hb, hs] at hne
    · exact .inl hlead
    · exact .inr ⟨hbody, by rw [hl]⟩

end Sys2Proof.Machine
end

section
/-! SUPPORT and proofs: the accesses of the register window, by word index. -/

namespace Sys2Proof.Machine

/-- An aligned read at word index `k` reads the register at that index. -/
theorem memRead_word {s : State} (hb : s.params.base % 4 = 0) {k : Nat} (hk : k < 32) :
    memRead .word (s.params.base + 4 * k) s = .next (readReg (regAt k) s) := by
  rw [memRead, classify_word hb hk]

/-- The write of the word at BASE runs the decoded command. -/
theorem memWrite_cmd {s : State} (hb : s.params.base % 4 = 0) (v : Word) :
    memWrite .word s.params.base v s = exec (decode v) s := by
  have hc : classify s.params .word s.params.base = .register .cmd := classify_word hb (k := 0) (by decide)
  rw [memWrite, hc]

/-- An aligned write at a word index other than CMD's writes the register at that index. -/
theorem memWrite_word {s : State} (hb : s.params.base % 4 = 0) {k : Nat} (hk : k < 32) (h0 : regAt k ≠ .cmd) (v : Word) :
    memWrite .word (s.params.base + 4 * k) v s = .next (writeReg (regAt k) v s) := by
  rw [memWrite, classify_word hb hk]
  cases hr : regAt k
  case cmd => exact absurd hr h0
  all_goals rfl

/-- An access that touches no byte of the window is not an access to the block. -/
theorem classify_outside {p : Params} {w : Width} {addr : Nat} (h : addr + w.bytes ≤ p.base ∨ p.base + 128 ≤ addr) :
    classify p w addr = .outside := if_neg (by omega)

/-- Of the reads, only that of MBX_CODE has a side effect. -/
theorem readReg_of_ne_mbxCode {r : Reg} (h : r ≠ .mbxCode) (s : State) : readReg r s = s.setHostData (peek s r) := by
  unfold readReg
  split
  · exact absurd rfl h
  · rfl

/-- The registers that a write other than a command can change (spec/10_state.md R22). -/
def writableRegs : List Reg := [.shapeLead, .shapeRep, .shapeOne, .shapeZero, .shapeType, .margin, .txcfg, .txd]

/-- Every other register ignores a write. -/
theorem writeReg_of_not_writable {r : Reg} (h : r ∉ writableRegs) (v : Word) (s : State) : writeReg r v s = s := by
  unfold writeReg
  split
  case h_9 => rfl
  all_goals exact absurd h (by decide)

/-- Settles O8: an aligned write at BASE reaches CMD, and the other stimuli are their own steps. -/
theorem stepRunsDecodedCommand : Obligations.StepRunsDecodedCommand := by
  refine ⟨?_, ?_, ?_, ?_⟩
  · intro s v rest hb hpend
    rw [step, hpend]
    exact memWrite_cmd (s := s.setPending rest) hb v
  · intro s rest hpend
    rw [step, hpend]
    rfl
  · intro s v rest hpend
    rw [step, hpend]
    rfl
  · intro s w hb hw
    have hstep : step (s.withFetchWord 32 w) = exec (decode (BitVec.ofNat 32 (w % 2 ^ 32))) s := memWrite_cmd hb _
    rwa [Nat.mod_eq_of_lt hw] at hstep

/-- Settles O10: none of the three reaches a branch that updates the state. -/
theorem whatIsNoStepChangesNothing : Obligations.WhatIsNoStepChangesNothing := by
  refine ⟨?_, ?_, ?_⟩
  · intro s w addr v h
    rw [memRead, memWrite, classify_outside h]
    exact ⟨rfl, rfl⟩
  · intro s hclk
    simp [exec, execTick, hclk]
  · intro s
    simp [exec, execEdge]

/-- Reads at offsets that are four times the indices of their registers, none of them MBX_CODE. -/
theorem memRead_of_map {s : State} (hb : s.params.base % 4 = 0) {l : List (Nat × Reg)}
    (hl : ∀ x ∈ l, x.1 = 4 * (x.1 / 4) ∧ x.1 / 4 < 32 ∧ regAt (x.1 / 4) = x.2 ∧ x.2 ≠ .mbxCode) :
    ∀ x ∈ l, memRead .word (s.params.base + x.1) s = .next (s.setHostData (peek s x.2)) := by
  intro x hx
  obtain ⟨hal, hk, hreg, hne⟩ := hl x hx
  rw [hal, memRead_word hb hk, hreg, readReg_of_ne_mbxCode hne]

/-- Settles O13: the map holds each register at four times its index, and a read of MBX_CODE is `readReg` itself. -/
theorem readsReturnRegisters : Obligations.ReadsReturnRegisters :=
  fun _ hb => ⟨memRead_of_map hb (by decide), memRead_word hb (k := 18) (by decide)⟩

/-- Settles O14: the other indices hold registers that ignore a write. -/
theorem otherWritesAreIgnored : Obligations.OtherWritesAreIgnored := by
  intro s k v hb hk hne
  have hmap : ∀ k < 32, k ∉ [0, 9, 10, 11, 12, 13, 14, 20, 26] → regAt k ≠ .cmd ∧ regAt k ∉ writableRegs := by decide
  obtain ⟨hcmd, hro⟩ := hmap k hk hne
  rw [memWrite_word hb hk hcmd, writeReg_of_not_writable hro]

/-- The FIRST field of a written word as a number. -/
theorem firstField_eq (v : Word) : firstField v = BitVec.ofNat 16 (v.toNat % 2 ^ 16) :=
  BitVec.eq_of_toNat_eq (by simp [firstField])

/-- The low W bits of the FIRST field of a written word. -/
theorem lowW_firstField (p : Params) (v : Word) :
    lowW p (firstField v) = BitVec.ofNat 16 (v.toNat % 2 ^ 16 % 2 ^ p.w) := by
  simp [lowW, wrap, modulus, firstField]

/-- The low W bits of the SECOND field of a written word. -/
theorem lowW_secondField (p : Params) (v : Word) :
    lowW p (secondField v) = BitVec.ofNat 16 (v.toNat / 2 ^ 16 % 2 ^ p.w) := by
  have hsecond : (secondField v).toNat = v.toNat / 2 ^ 16 := by
    have := v.isLt
    rw [secondField, BitVec.extractLsb'_toNat, Nat.shiftRight_eq_div_pow]
    omega
  rw [lowW, wrap, modulus, hsecond]

/-- Settles O15: each is the write of its register, whose halves are the low W bits of the fields of the word. -/
theorem shapeAndTxdWrites : Obligations.ShapeAndTxdWrites := by
  intro s v hb
  have hwrite (k : Nat) (hk : k < 32) (h0 : regAt k ≠ .cmd) := memWrite_word hb hk h0 v
  dsimp only
  rw [← lowW_firstField, ← lowW_secondField, ← firstField_eq]
  refine ⟨?_, ?_, ?_, ?_, ?_, ?_, ?_⟩
  · exact hwrite 9 (by decide) (by decide)
  · exact hwrite 10 (by decide) (by decide)
  · exact hwrite 11 (by decide) (by decide)
  · exact hwrite 12 (by decide) (by decide)
  · exact hwrite 13 (by decide) (by decide)
  · exact hwrite 14 (by decide) (by decide)
  · exact hwrite 26 (by decide) (by decide)

/-- Settles O16: the write of TXCFG is `writeTxcfg`, which looks at BUSY. -/
theorem txcfgWriteNeedsIdleQueue : Obligations.TxcfgWriteNeedsIdleQueue := by
  intro s v hb
  have hwrite : memWrite .word (s.params.base + 0x50) v s = .next (s.setTx (writeTxcfg v s.tx)) :=
    memWrite_word hb (k := 20) (by decide) (by decide) v
  rw [hwrite]
  refine ⟨fun hbusy => ?_, fun hidle => ?_⟩
  · rw [writeTxcfg, if_pos ((busy_iff _).2 hbusy)]
    rfl
  · rw [writeTxcfg, if_neg (by simp [hidle])]
    rfl

end Sys2Proof.Machine
end

section
/-! SUPPORT and proofs: the words of the registers as numbers. -/

namespace Sys2Proof.Machine

/-- Bits that are not named read 0. -/
@[simp] theorem zero_append_toNat {m n : Nat} (x : BitVec n) : (0#m ++ x).toNat = x.toNat := by simp

theorem pulseWord_toNat (a b : Half) : (pulseWord a b).toNat = a.toNat + 65536 * b.toNat := by
  rw [pulseWord, append_toNat]
  omega

theorem codeWord_toNat (c : Code) :
    (codeWord c).toNat = c.addr.toNat + 65536 * c.cmd.toNat + 16777216 * c.nov.toBits.toNat := by
  simp only [codeWord, append_toNat, BitVec.toNat_ofNat]
  omega

/-- The halves of a pulse word are W-bit values when those of the pulse are. -/
theorem pulseWord_fits {p : Params} {a b : Half} (ha : HalfFits p a) (hb : HalfFits p b) :
    (pulseWord a b).toNat % 65536 < 2 ^ p.w ∧ (pulseWord a b).toNat / 65536 < 2 ^ p.w := by
  have hlt := a.isLt
  have h1 : (pulseWord a b).toNat % 65536 = a.toNat := by rw [pulseWord_toNat]; omega
  have h2 : (pulseWord a b).toNat / 65536 = b.toNat := by rw [pulseWord_toNat]; omega
  rw [h1, h2]
  exact ⟨ha, hb⟩

/-! The registers with several fields. -/

section
variable (s : State)

theorem peek_clkcfg_toNat : (peek s .clkcfg).toNat = s.clock.psc.toNat + 16 * s.clock.clkSet.toNat := by
  simp only [peek, append_toNat, ofBool_toNat, BitVec.toNat_ofNat]
  omega

theorem peek_capcfg_toNat :
    (peek s .capcfg).toNat = s.cap.en.toNat + 2 * s.cap.idle.toNat + 4 * s.cap.nc.toNat
      + 16 * s.cap.phase.toBits.toNat + 64 * s.cap.edgeType.toBit.toNat + 128 * s.cap.pinIn.toNat := by
  simp only [peek, append_toNat, ofBool_toNat, BitVec.toNat_ofNat]
  omega

theorem peek_lastPulseT_toNat :
    (peek s .lastPulseT).toNat =
      s.last.pulse.type.toBit.toNat + 2 * s.last.valid.toNat + 65536 * s.last.pcount.toNat := by
  simp only [peek, append_toNat, ofBool_toNat, BitVec.toNat_ofNat]
  omega

theorem peek_shapeType_toNat :
    (peek s .shapeType).toNat = s.shapes.lead.type.toBit.toNat + 2 * s.shapes.rep.type.toBit.toNat
      + 4 * s.shapes.one.type.toBit.toNat + 8 * s.shapes.zero.type.toBit.toNat := by
  simp only [peek, append_toNat, ofBool_toNat, BitVec.toNat_ofNat]
  omega

theorem peek_fsaStatus_toNat : (peek s .fsaStatus).toNat = s.fsa.state.toBits.toNat + 4 * s.fsa.bits.toNat := by
  simp only [peek, append_toNat, BitVec.toNat_ofNat]
  omega

theorem peek_txStatus_toNat :
    (peek s .txStatus).toNat = s.tx.busy.toNat + 2 * s.tx.pinOut.toNat + 4 * s.tx.presel.toNat := by
  simp only [peek, append_toNat, ofBool_toNat, BitVec.toNat_ofNat]
  omega

theorem peek_txLen_toNat :
    (peek s .txLen).toNat = s.tx.queue.length % 65536 + 65536 * (s.tx.stage.length % 65536) := by
  simp only [peek, append_toNat, BitVec.toNat_ofNat]
  omega

theorem peek_mbxCode_toNat :
    (peek s .mbxCode).toNat = s.mbx.code.addr.toNat + 65536 * s.mbx.code.cmd.toNat
      + 16777216 * s.mbx.code.nov.toBits.toNat + 2147483648 * s.mbx.ready.toNat := by
  rw [peek, mailboxWord_toNat]
  omega

/-- The registers of one W-bit field. -/
theorem peek_half_fits {s : State} (h : s.Inv) :
    ∀ r ∈ [Reg.capCnt, .capFirst, .txCnt, .txCmp], (peek s r).toNat < 2 ^ s.params.w := by
  simp only [List.forall_mem_cons, peek, zero_append_toNat]
  exact ⟨h.cap.countFits, h.cap.firstFits, h.tx.countFits, h.tx.cmpFits, by simp⟩

/-- The registers of two W-bit fields. -/
theorem peek_pulse_fits {s : State} (h : s.Inv) :
    ∀ r ∈ [Reg.lastPulse, .shapeLead, .shapeRep, .shapeOne, .shapeZero, .txd],
      (peek s r).toNat % 65536 < 2 ^ s.params.w ∧ (peek s r).toNat / 65536 < 2 ^ s.params.w := by
  obtain ⟨⟨hl1, hl2⟩, ⟨hr1, hr2⟩, ⟨ho1, ho2⟩, ⟨hz1, hz2⟩⟩ := h.shapesFit
  obtain ⟨hp1, hp2⟩ := h.lastFits
  obtain ⟨ht1, ht2⟩ := h.tx.txdFits
  simp only [List.forall_mem_cons, peek]
  exact ⟨pulseWord_fits hp1 hp2, pulseWord_fits hl1 hl2, pulseWord_fits hr1 hr2, pulseWord_fits ho1 ho2,
    pulseWord_fits hz1 hz2, pulseWord_fits ht1 ht2, by simp⟩

end

/-- Settles O12: each register as a number, the registers of one field being that field above zeros. -/
theorem registersShowTheirFields : Obligations.RegistersShowTheirFields := by
  refine ⟨by decide, by decide, by decide, by decide, fun s h => ⟨peek_half_fits h, peek_pulse_fits h⟩, fun s => ?_⟩
  exact
    ⟨rfl, rfl, zero_append_toNat _, peek_clkcfg_toNat s, zero_append_toNat _, peek_capcfg_toNat s, zero_append_toNat _,
      zero_append_toNat _, pulseWord_toNat _ _, peek_lastPulseT_toNat s, pulseWord_toNat _ _, pulseWord_toNat _ _,
      pulseWord_toNat _ _, pulseWord_toNat _ _, peek_shapeType_toNat s, zero_append_toNat _, peek_fsaStatus_toNat s, rfl,
      codeWord_toNat _, peek_mbxCode_toNat s, rfl, (zero_append_toNat _).trans (ofBool_toNat _), peek_txStatus_toNat s,
      peek_txLen_toNat s, zero_append_toNat _, zero_append_toNat _, zero_append_toNat _, pulseWord_toNat _ _⟩

end Sys2Proof.Machine
end

section
/-! SUPPORT and proofs: which accesses are refused, and what changes the queue and the FSA. -/

namespace Sys2Proof.Machine

/-! Refused accesses (spec/20_memory.md R63, R64). -/

/-- The access touches a byte of the window, and is sub-word or misaligned, with the reason that the model gives. -/
def BadAccess (p : Params) (w : Width) (addr : Nat) (r : Refusal) : Prop :=
  (addr < p.base + 128 ∧ p.base < addr + w.bytes) ∧
    ((w ≠ .word ∧ r = .subWordAccess) ∨ (w = .word ∧ addr % 4 ≠ 0 ∧ r = .misalignedAccess))

/-- An access is refused exactly when it is a bad one. -/
theorem classify_refuse_iff {p : Params} {w : Width} {addr : Nat} {r : Refusal} :
    classify p w addr = .refuse r ↔ BadAccess p w addr r := by
  unfold classify BadAccess
  by_cases hin : addr < p.base + 128 ∧ p.base < addr + w.bytes
  · rw [if_pos hin, and_iff_right hin]
    cases w with
    | byte => simp [eq_comm]
    | half => simp [eq_comm]
    | word => by_cases hal : addr % 4 = 0 <;> simp [hal, eq_comm]
  · simp [hin]

theorem memRead_refused_iff {w : Width} {addr : Nat} {s : State} {r : Refusal} :
    memRead w addr s = .refused r ↔ BadAccess s.params w addr r := by
  rw [← classify_refuse_iff, memRead]
  cases classify s.params w addr <;> simp

/-- A write of CMD is not refused: its command answers a next state. -/
theorem memWrite_refused_iff {w : Width} {addr : Nat} {v : Word} {s : State} {r : Refusal} :
    memWrite w addr v s = .refused r ↔ BadAccess s.params w addr r := by
  rw [← classify_refuse_iff, memWrite]
  obtain ⟨t, he⟩ := exec_next (decode v) s
  cases classify s.params w addr with
  | outside => simp
  | refuse r' => simp
  | register reg => cases reg <;> simp [he]

/-- A bad access is refused, read or write. -/
theorem BadAccess.refused {s : State} {w : Width} {addr : Nat} {r : Refusal} (h : BadAccess s.params w addr r) (v : Word) :
    memRead w addr s = .refused r ∧ memWrite w addr v s = .refused r :=
  ⟨memRead_refused_iff.2 h, memWrite_refused_iff.2 h⟩

/-- Of the stimuli, only a bad host access is refused. -/
theorem perform_refused {a : Stimulus} {s : State} {r : Refusal} (h : perform a s = .refused r) :
    ∃ w addr, BadAccess s.params w addr r ∧ (a = .hostRead w addr ∨ ∃ v, a = .hostWrite w addr v) := by
  cases a with
  | hostRead w addr => exact ⟨w, addr, memRead_refused_iff.1 h, .inl rfl⟩
  | hostWrite w addr v => exact ⟨w, addr, memWrite_refused_iff.1 h, .inr ⟨v, rfl⟩⟩
  | readerOpen c => cases h
  | readerPoll => cases h
  | tick => obtain ⟨t, he⟩ := exec_next .tick s; cases he.symm.trans h
  | edge v => obtain ⟨t, he⟩ := exec_next (.edge v) s; cases he.symm.trans h

/-- A step that is refused has a next stimulus, and that is refused. -/
theorem step_refused {s : State} {r : Refusal} (h : step s = .refused r) :
    ∃ a, s.pending.head? = some a ∧ perform a (s.setPending s.pending.tail) = .refused r := by
  unfold step at h
  split at h
  · cases h
  · next a rest hp => exact ⟨a, by rw [hp]; rfl, by rw [hp]; exact h⟩

/-- An access that starts in the window touches it. -/
theorem touches_of_starts {p : Params} {addr : Nat} (hlo : p.base ≤ addr) (hhi : addr < p.base + 128) (w : Width) :
    addr < p.base + 128 ∧ p.base < addr + w.bytes := by
  have hw : 0 < w.bytes := by cases w <;> decide
  omega

/-- Settles O9: `Fault` has no value, and the step is refused exactly at a bad access. -/
theorem onlyBadAccessesAreRefused : Obligations.OnlyBadAccessesAreRefused := by
  refine ⟨fun _ f => (nomatch f), ?_, ?_, ?_⟩
  · intro s r h
    obtain ⟨a, hhead, ha⟩ := step_refused h
    obtain ⟨w, addr, ⟨⟨hhi, hlo⟩, hbad⟩, hacc⟩ := perform_refused ha
    exact ⟨w, addr, hhi, hlo, by simpa [hhead] using hacc, hbad⟩
  · intro s w addr v hlo hhi hw
    exact BadAccess.refused ⟨touches_of_starts hlo hhi w, .inl ⟨hw, rfl⟩⟩ v
  · intro s addr v hlo hhi hal
    exact BadAccess.refused ⟨touches_of_starts hlo hhi .word, .inr ⟨rfl, hal, rfl⟩⟩ v

/-! The queue (spec/20_memory.md R75). -/

theorem sendStage_queue (p : Params) (tx : Tx) :
    (sendStage p tx).queue = tx.queue ++ tx.stage ∧ (sendStage p tx).stage = [] := by
  unfold sendStage
  repeat' split
  all_goals exact ⟨rfl, rfl⟩

@[simp] theorem writeTxcfg_queue (v : Word) (tx : Tx) : (writeTxcfg v tx).queue = tx.queue := by
  unfold writeTxcfg
  split <;> rfl

/-- The compare match of this TICK ends the last half of the train, and `tx'` is what it leaves (R170, R171). -/
def TrainEnds (p : Params) (tx tx' : Tx) : Prop :=
  wrap p (tx.count.toNat + 1) = tx.cmp ∧ tx.cursor.toNat + 1 = 2 * tx.queue.length ∧
    tx'.queue = [] ∧ tx'.cursor = 0 ∧ tx'.pinOut = tx.presel

/-- The transmit part of a TICK keeps the queue or ends the train. -/
theorem tickTx_queue_or_ends (p : Params) (tx : Tx) : (tickTx p tx).queue = tx.queue ∨ TrainEnds p tx (tickTx p tx) := by
  unfold tickTx
  dsimp only
  split
  · next hmatch =>
    unfold compareMatch
    dsimp only
    split
    · next hlast => exact .inr ⟨hmatch.2, hlast, rfl, rfl, rfl⟩
    · exact .inl rfl
  · exact .inl rfl

/-- An instruction keeps the queue, or is a TX_SEND that appends the stage, or a TICK that ends the train. -/
theorem exec_queue {i : Instr} {s t : State} (h : exec i s = .next t) :
    t.tx.queue = s.tx.queue ∨ (i = .txSend ∧ t.tx.queue = s.tx.queue ++ s.tx.stage ∧ t.tx.stage = []) ∨
      (i = .tick ∧ s.clock.clkSet = true ∧ TrainEnds s.params s.tx t.tx) := by
  cases i with
  | txSend =>
    obtain ⟨-, rfl⟩ | ⟨-, -, rfl⟩ | ⟨-, -, -, rfl⟩ | ⟨-, -, -, rfl⟩ := txSend_cases h
    · exact .inl rfl
    · exact .inl rfl
    · exact .inl rfl
    · exact .inr (.inl ⟨rfl, sendStage_queue s.params s.tx⟩)
  | tick =>
    obtain ⟨-, rfl⟩ | ⟨hclk, rfl⟩ := tick_cases h
    · exact .inl rfl
    · exact (tickTx_queue_or_ends s.params s.tx).imp_right fun hend => .inr ⟨rfl, hclk, hend⟩
  | setClock psc period => left; obtain ⟨-, rfl⟩ | ⟨-, rfl⟩ := setClock_cases h <;> rfl
  | configRead idle nc =>
    left; obtain ⟨-, rfl⟩ | ⟨-, -, -, rfl⟩ | ⟨-, -, -, rfl⟩ | ⟨-, -, rfl⟩ := configRead_cases h <;> rfl
  | txPush type => left; obtain ⟨-, rfl⟩ | ⟨-, rfl⟩ := txPush_cases h <;> rfl
  | edge v =>
    left
    obtain ⟨-, rfl⟩ | ⟨-, -, rfl⟩ | ⟨-, -, -, rfl⟩ | ⟨-, -, -, rfl⟩ | ⟨-, -, rfl⟩ | ⟨-, -, rfl⟩ := edge_cases h <;> rfl
  | nop => cases h; exact .inl rfl
  | configReadStop idle nc => cases h; exact .inl rfl
  | txClearStage => cases h; exact .inl rfl
  | reserved w => cases h; exact .inl rfl

/-- A poll of the reader clears READY at most, and leaves the transmit fields. -/
theorem readerPoll_frame (s : State) :
    ((readerPoll s).mbx = s.mbx ∨ (readerPoll s).mbx = { s.mbx with ready := false }) ∧ (readerPoll s).tx = s.tx := by
  obtain e | ⟨c, -, ⟨-, e⟩ | ⟨cmd, -, e⟩⟩ := readerPoll_eq s <;> rw [e]
  · exact ⟨.inl rfl, rfl⟩
  · exact ⟨.inr rfl, rfl⟩
  · exact ⟨.inr rfl, rfl⟩

/-- A host access that runs no command leaves the mailbox, but that a read of MBX_CODE clears READY. -/
theorem HostEffect.mbx {s t : State} (h : HostEffect s t) : t.mbx = s.mbx ∨ t.mbx = { s.mbx with ready := false } := by
  cases h with
  | nothing => exact .inl rfl
  | read r => obtain e | e := readReg_eq r s <;> rw [e]; exacts [.inl rfl, .inr rfl]
  | write r v => obtain ⟨-, -, -, -, -, -, hm⟩ := writeReg_frame r v s; exact .inl hm
  | readerOpen c => left; obtain e | ⟨-, e⟩ := readerOpen_eq c s <;> rw [e]; rfl
  | readerPoll => exact (readerPoll_frame s).1

/-- A host access that runs no command leaves the queue. -/
theorem HostEffect.queue {s t : State} (h : HostEffect s t) : t.tx.queue = s.tx.queue := by
  cases h with
  | nothing => rfl
  | read r => obtain ⟨-, -, -, -, -, -, -, htx⟩ := readReg_frame r s; rw [htx]
  | write r v => obtain e | ⟨_, e⟩ | e | e := writeReg_eq r v s <;> rw [e] <;> simp
  | readerOpen c => obtain e | ⟨-, e⟩ := readerOpen_eq c s <;> rw [e]; rfl
  | readerPoll => rw [(readerPoll_frame s).2]

/-- Settles O41: of the instructions only TX_SEND and a TICK that ends the train write the queue, and no other host access
does. -/
theorem queueGrowsAndIsReleasedOnlySo : Obligations.QueueGrowsAndIsReleasedOnlySo := by
  intro s t hp h hne
  obtain ⟨-, rfl⟩ | ⟨a, rest, hpend, h⟩ := step_cases h
  · exact absurd rfl hne
  obtain ⟨w, addr, v, rfl, hc, he⟩ | ⟨rfl, he⟩ | ⟨v, -, he⟩ | he := perform_cases h
  · obtain ⟨rfl, rfl⟩ := classify_cmd (base_aligned hp) hc
    obtain hq | ⟨hi, happ⟩ | ⟨hi, -⟩ := exec_queue he
    · exact absurd hq hne
    · exact .inl ⟨v, by rw [hpend]; rfl, hi, happ⟩
    · exact absurd (decode_isCommand v) (by simp [hi, Instr.isCommand])
  · obtain hq | ⟨hi, -⟩ | ⟨-, hclk, hmatch, hlast, hend⟩ := exec_queue he
    · exact absurd hq hne
    · cases hi
    · have hcmp : (s.tx.count.toNat + 1) % 2 ^ s.params.w = s.tx.cmp.toNat :=
        (wrap_toNat hp _).symm.trans (congrArg BitVec.toNat hmatch)
      exact .inr ⟨by rw [hpend]; rfl, hclk, hcmp, hlast, hend⟩
  · exact absurd ((exec_queue he).resolve_right (by simp)) hne
  · exact absurd he.queue hne

/-! The FSA (spec/20_memory.md R71). -/

/-- Settles O54: a command and any other host access consume no pulse, so a step that does is a TICK or an edge. -/
theorem fsaChangesOnlyOnEmission : Obligations.FsaChangesOnlyOnEmission := by
  intro s t h
  obtain ⟨-, rfl⟩ | ⟨a, rest, hpend, h⟩ := step_cases h
  · exact .inl ⟨rfl, rfl, .inl rfl⟩
  rw [hpend]
  obtain ⟨_, _, v, -, -, he⟩ | ⟨rfl, he⟩ | ⟨v, rfl, he⟩ | he := perform_cases h
  · obtain ⟨hl, hf, hm⟩ := command_quiet (decode_isCommand v) he
    exact .inl ⟨hl, hf, .inl hm⟩
  · obtain ⟨hl, hf, hm⟩ | ⟨p, hl, hf, hm⟩ := tick_quiet_or_emitted he
    · exact .inl ⟨hl, hf, .inl hm⟩
    · exact .inr ⟨.inl rfl, by rw [hl], by rw [hl]; rfl, by rw [hl, hf, hm]; rfl⟩
  · obtain ⟨hl, hf, hm⟩ | ⟨p, hl, hf, hm⟩ := edge_quiet_or_emitted he
    · exact .inl ⟨hl, hf, .inl hm⟩
    · exact .inr ⟨.inr ⟨v, rfl⟩, by rw [hl], by rw [hl]; rfl, by rw [hl, hf, hm]; rfl⟩
  · obtain ⟨-, -, -, -, hl, hf⟩ := he.frame
    exact .inl ⟨hl, hf, he.mbx⟩

end Sys2Proof.Machine
end

section
/-! SUPPORT and proofs: the decoder and the encoder are inverse, and the words that the decoder answers with `reserved` are
the illegal words (spec/30_encoding.md R80 to R85). -/

namespace Sys2Proof.Machine

/-- A mask of `n` ones from bit `k` on keeps that field, at its place. -/
theorem and_field_toNat (w : Word) {k n : Nat} (h : k + n ≤ 32) :
    (w &&& BitVec.ofNat 32 (2 ^ n - 1) <<< k).toNat = w.toNat / 2 ^ k % 2 ^ n * 2 ^ k := by
  have hshift : w &&& BitVec.ofNat 32 (2 ^ n - 1) <<< k = ((w >>> k) &&& BitVec.ofNat 32 (2 ^ n - 1)) <<< k := by
    ext i hi
    simp only [BitVec.getElem_and, BitVec.getElem_shiftLeft]
    by_cases hik : i < k
    · simp [hik]
    · simp [hik, show k + (i - k) = i by omega, BitVec.getLsbD_eq_getElem hi]
  have hfit : w.toNat / 2 ^ k % 2 ^ n * 2 ^ k < 2 ^ 32 :=
    calc w.toNat / 2 ^ k % 2 ^ n * 2 ^ k
      _ < 2 ^ n * 2 ^ k := Nat.mul_lt_mul_of_pos_right (Nat.mod_lt _ (Nat.two_pow_pos n)) (Nat.two_pow_pos k)
      _ = 2 ^ (k + n) := by rw [← Nat.pow_add, Nat.add_comm]
      _ ≤ 2 ^ 32 := Nat.pow_le_pow_right (by decide) h
  rw [hshift, BitVec.toNat_shiftLeft, and_ones_toNat _ n (by omega), BitVec.toNat_ushiftRight, Nat.shiftRight_eq_div_pow,
    Nat.shiftLeft_eq, Nat.mod_eq_of_lt hfit]

/-- The bits of ARG from bit `k` up to bit 27, which is where the reserved bits of each OP lie (R80), are all 0. -/
theorem and_argTop_eq_zero_iff (w : Word) {k : Nat} (hk : k ≤ 28) :
    w &&& BitVec.ofNat 32 (2 ^ (28 - k) - 1) <<< k = 0#32 ↔ w.toNat % 2 ^ 28 / 2 ^ k = 0 := by
  have hfield : w.toNat / 2 ^ k % 2 ^ (28 - k) = w.toNat % 2 ^ 28 / 2 ^ k := by
    rw [← Nat.mod_mul_right_div_self, ← Nat.pow_add, Nat.add_sub_cancel' hk]
  rw [← BitVec.toNat_inj, and_field_toNat w (by omega), hfield]
  simp

/-- The test of the reserved bits of an OP, as a number (R80). -/
theorem reservedArg_eq_zero_iff (w : Word) (op : Nat) :
    w &&& reservedArgMask op = 0#32 ↔
      op = 1 ∨ (op = 2 ∧ w.toNat % 2 ^ 28 < 8) ∨ (op = 3 ∧ w.toNat % 2 ^ 28 < 2) ∨ w.toNat % 2 ^ 28 = 0 := by
  have hall := and_argTop_eq_zero_iff w (show 0 ≤ 28 by decide)
  have hconfig := and_argTop_eq_zero_iff w (show 3 ≤ 28 by decide)
  have hpush := and_argTop_eq_zero_iff w (show 1 ≤ 28 by decide)
  unfold reservedArgMask
  split
  case h_2 => simp
  case h_3 => exact hconfig.trans (by omega)
  case h_4 => exact hpush.trans (by omega)
  case h_7 _ h1 h2 h3 _ _ => rw [imp_false] at h1 h2 h3; exact hall.trans (by omega)
  all_goals exact hall.trans (by omega)

/-- The illegal words by OP and ARG (R84). -/
theorem illegalWord_iff (w : Word) :
    illegalWord w = true ↔
      (6 ≤ (w >>> 28).toNat ∨
        ((w >>> 28).toNat ∈ [0, 4, 5] ∧ w.toNat % 2 ^ 28 ≠ 0) ∨
        ((w >>> 28).toNat = 2 ∧ 8 ≤ w.toNat % 2 ^ 28) ∨ ((w >>> 28).toNat = 3 ∧ 2 ≤ w.toNat % 2 ^ 28)) := by
  simp only [illegalWord, Bool.or_eq_true, decide_eq_true_eq, bne_iff_ne, ne_eq, reservedArg_eq_zero_iff,
    List.mem_cons, List.not_mem_nil, or_false]
  omega

/-! The words of the commands that have operands, as numbers (R81, R82). -/

theorem setClock_word_toNat (psc : BitVec 4) (period : BitVec 24) :
    (0x1#4 ++ period ++ psc).toNat = 2 ^ 28 + 16 * period.toNat + psc.toNat := by
  simp only [append_toNat, BitVec.toNat_ofNat]
  omega

theorem configRead_word_toNat (nc idle en : Bool) :
    (0x2#4 ++ 0#25 ++ BitVec.ofBool nc ++ BitVec.ofBool idle ++ BitVec.ofBool en).toNat =
      2 ^ 29 + 4 * nc.toNat + 2 * idle.toNat + en.toNat := by
  simp only [append_toNat, BitVec.toNat_ofNat, ofBool_toNat]
  omega

theorem txPush_word_toNat (b : Bool) : (0x3#4 ++ 0#27 ++ BitVec.ofBool b).toNat = 3 * 2 ^ 28 + b.toNat := by
  simp only [append_toNat, BitVec.toNat_ofNat, ofBool_toNat]
  omega

/-- The two rows of CONFIG_READ differ in EN (R81). -/
theorem encode_configRead (idle nc en : Bool) :
    encode (if en then .configRead idle nc else .configReadStop idle nc) =
      some (0x2#4 ++ 0#25 ++ BitVec.ofBool nc ++ BitVec.ofBool idle ++ BitVec.ofBool en) := by
  cases en <;> rfl

/-- No bit of a word is dropped: each field that the decoder reads is put back at its place, and the other bits of a word
that is not `reserved` are those of its row. -/
theorem encode_decode (w : Word) : encode (decode w) = some w := by
  have hw := w.isLt
  unfold decode
  simp only [opField_toNat, argFrom_eq]
  split
  case h_2 =>
    refine congrArg some (BitVec.eq_of_toNat_eq ?_)
    rw [setClock_word_toNat]
    simp only [periodField, pscField, BitVec.extractLsb'_toNat, Nat.shiftRight_eq_div_pow]
    omega
  case h_3 =>
    split
    · refine (encode_configRead _ _ _).trans (congrArg some (BitVec.eq_of_toNat_eq ?_))
      rw [configRead_word_toNat]
      simp only [enField, idleField, ncField, bit_toNat]
      omega
    · rfl
  case h_4 =>
    split
    · refine congrArg some (BitVec.eq_of_toNat_eq ?_)
      rw [toBit_ofBit, txPush_word_toNat, bit_toNat]
      omega
    · rfl
  case h_7 => rfl
  all_goals -- the three commands without operands
    split
    · exact congrArg some (BitVec.eq_of_toNat_eq (by rw [BitVec.toNat_ofNat]; omega))
    · rfl

/-- The decoder rejects exactly the illegal words: in each OP of the table it tests the reserved bits of that OP. -/
theorem decode_eq_reserved_iff (w : Word) : decode w = .reserved w ↔ illegalWord w = true := by
  have hw := w.isLt
  rw [illegalWord_iff, ushiftRight28_toNat]
  unfold decode
  simp only [opField_toNat, argFrom_eq, List.mem_cons, List.not_mem_nil, or_false]
  split
  case h_2 => simp only [reduceCtorEq, false_iff]; omega
  case h_7 h0 h1 h2 h3 h4 h5 =>
    rw [imp_false] at h0 h1 h2 h3 h4 h5
    simp only [true_iff]
    omega
  all_goals
    repeat' split
    all_goals simp only [reduceCtorEq, false_iff, true_iff]; omega

/-- A word that decodes to a reserved word is that word. -/
theorem eq_of_decode_reserved {w v : Word} (h : decode w = .reserved v) : v = w := by
  simpa [h, encode] using encode_decode w

/-- Every word decodes to a well-formed command. -/
theorem decode_wellFormed (w : Word) : (decode w).wellFormed = true := by
  cases h : decode w with
  | reserved v =>
    obtain rfl := eq_of_decode_reserved h
    exact (decode_eq_reserved_iff _).1 h
  | _ => rfl

/-- The word of a well-formed command decodes to that command. -/
theorem decode_of_encode {i : Instr} {w : Word} (hwf : i.wellFormed = true) (he : encode i = some w) : decode w = i := by
  cases i with
  | setClock psc period =>
    cases he
    have hop : (opField (0x1#4 ++ period ++ psc)).toNat = 1 := by
      simpa [encode, Laws.OpcodeNibble.opOf] using (Laws.OpcodeNibble.setClock psc period).1
    have hpsc : pscField (0x1#4 ++ period ++ psc) = psc := by
      apply BitVec.eq_of_toNat_eq
      rw [pscField, BitVec.extractLsb'_toNat, setClock_word_toNat, Nat.shiftRight_eq_div_pow]
      omega
    have hperiod : periodField (0x1#4 ++ period ++ psc) = period := by
      apply BitVec.eq_of_toNat_eq
      rw [periodField, BitVec.extractLsb'_toNat, setClock_word_toNat, Nat.shiftRight_eq_div_pow]
      omega
    simp only [decode, hop, hpsc, hperiod]
  | configRead idle nc => cases he; cases idle <;> cases nc <;> decide
  | configReadStop idle nc => cases he; cases idle <;> cases nc <;> decide
  | txPush type => cases he; cases type <;> decide
  | nop => cases he; decide
  | txSend => cases he; decide
  | txClearStage => cases he; decide
  | tick => cases he
  | edge v => cases he
  | reserved v => cases he; exact (decode_eq_reserved_iff w).2 hwf

/-- Every command has a word. -/
theorem exists_encode {i : Instr} (hi : i.isCommand = true) : ∃ w, encode i = some w := by
  cases i with
  | tick => cases hi
  | edge v => cases hi
  | _ => exact ⟨_, rfl⟩

/-- Settles O5: the word by `decode_of_encode`; the four bytes of a word, read in order, are that word. -/
theorem decodeOfEncodeIsIdentity : Obligations.DecodeOfEncodeIsIdentity := by
  intro i hwf hi
  obtain ⟨w, he⟩ := exists_encode hi
  have hd := decode_of_encode hwf he
  refine ⟨w, _, he, hd, by rw [encodeBytes, he]; rfl, fun rest => ?_⟩
  simp only [List.cons_append, List.nil_append, decodeBytes, wordOfBytes_bytes, hd]

/-- Settles O6: `encode_decode`, and the decoder answers well-formed commands only. -/
theorem encodeOfDecodeIsIdentity : Obligations.EncodeOfDecodeIsIdentity :=
  fun w => ⟨encode_decode w, decode_wellFormed w, decode_isCommand w⟩

/-- Settles O3: ten fixed words, decoded by evaluation. -/
theorem sampleWordsDecode : Obligations.SampleWordsDecode := by
  unfold Obligations.SampleWordsDecode
  decide

/-- Of the commands only a reserved word reports BadCommand. -/
theorem result_ne_badCommand {i : Instr} (hi : i.isCommand = true) (hr : ∀ v, i ≠ .reserved v) {s t : State}
    (h : exec i s = .next t) : t.result ≠ .badCommand := by
  cases i with
  | nop => cases h; simp
  | setClock psc period => obtain ⟨-, rfl⟩ | ⟨-, rfl⟩ := setClock_cases h <;> simp
  | configRead idle nc =>
    obtain ⟨-, rfl⟩ | ⟨-, -, -, rfl⟩ | ⟨-, -, -, rfl⟩ | ⟨-, -, rfl⟩ := configRead_cases h <;> simp
  | configReadStop idle nc => cases h; simp
  | txPush type => obtain ⟨-, rfl⟩ | ⟨-, rfl⟩ := txPush_cases h <;> simp
  | txSend =>
    obtain ⟨-, rfl⟩ | ⟨-, -, rfl⟩ | ⟨-, -, -, rfl⟩ | ⟨-, -, -, rfl⟩ := txSend_cases h <;> simp
  | txClearStage => cases h; simp
  | tick => cases hi
  | edge v => cases hi
  | reserved v => exact absurd rfl (hr v)

/-- Settles O7: an illegal word decodes to `reserved`, whose meaning reads no state, and a legal word decodes to a command
that is not `reserved`. -/
theorem illegalWordIsBadCommand : Obligations.IllegalWordIsBadCommand := by
  refine ⟨rfl, illegalWord_iff, fun w s hw => ?_, fun _ _ => rfl, fun w s t hw h => ?_⟩
  · rw [(decode_eq_reserved_iff w).2 hw]
    rfl
  · refine result_ne_badCommand (decode_isCommand w) (fun v hv => ?_) h
    obtain rfl := eq_of_decode_reserved hv
    simp [(decode_eq_reserved_iff v).1 hv] at hw

/-! The rows of the opcode table. -/

/-- Every row of the table fixes OP and the reserved bits of its OP, and fixes them as a legal word has them. -/
theorem opcodeRows_fix_reserved :
    ∀ r ∈ opcodeRows, r.mask >>> 28 = 0xF#32 ∧ illegalWord r.matchBits = false ∧
      r.mask &&& reservedArgMask (r.matchBits >>> 28).toNat = reservedArgMask (r.matchBits >>> 28).toNat := by
  decide

/-- A word with the pattern of a row has the row's OP. -/
theorem hits_op {r : Row} (hr : r ∈ opcodeRows) {w : Word} (h : r.hits w = true) : w >>> 28 = r.matchBits >>> 28 := by
  obtain ⟨hmask, -, -⟩ := opcodeRows_fix_reserved r hr
  have hw := w.isLt
  rw [← eq_of_beq h, BitVec.ushiftRight_and_distrib, hmask]
  apply BitVec.eq_of_toNat_eq
  rw [show 0xF#32 = BitVec.ofNat 32 (2 ^ 4 - 1) from rfl, and_ones_toNat _ 4 (by decide), ushiftRight28_toNat]
  omega

/-- A word with the pattern of a row is legal. -/
theorem legal_of_hits {r : Row} (hr : r ∈ opcodeRows) {w : Word} (h : r.hits w = true) : illegalWord w = false := by
  obtain ⟨-, hlegal, hreserved⟩ := opcodeRows_fix_reserved r hr
  have hsame :=
    calc w &&& reservedArgMask (r.matchBits >>> 28).toNat
      _ = w &&& (r.mask &&& reservedArgMask (r.matchBits >>> 28).toNat) := by rw [hreserved]
      _ = (w &&& r.mask) &&& reservedArgMask (r.matchBits >>> 28).toNat := by rw [BitVec.and_assoc]
      _ = r.matchBits &&& reservedArgMask (r.matchBits >>> 28).toNat := by rw [eq_of_beq h]
  rw [← hlegal, illegalWord, illegalWord, hits_op hr h, hsame]

/-- The row of SET_CLOCK is the one with OP 1, and it fixes no other bit. -/
theorem opcodeRows_setClock :
    ∀ r ∈ opcodeRows, (r.matchBits >>> 28 = 1#32 ↔ "SET_CLOCK" = r.mnemonic) ∧
      ("SET_CLOCK" = r.mnemonic → r.matchBits = 1#32 <<< 28 ∧ r.mask = BitVec.ofNat 32 (2 ^ 4 - 1) <<< 28) := by
  decide

/-- A word of SET_CLOCK has the pattern of its row and of no other. -/
theorem hits_setClock (psc : BitVec 4) (period : BitVec 24) {r : Row} (hr : r ∈ opcodeRows) :
    r.hits (0x1#4 ++ period ++ psc) = true ↔ "SET_CLOCK" = r.mnemonic := by
  obtain ⟨hop, hrow⟩ := opcodeRows_setClock r hr
  have hword := setClock_word_toNat psc period
  constructor
  · intro h
    rw [← hop, ← hits_op hr h]
    apply BitVec.eq_of_toNat_eq
    rw [ushiftRight28_toNat, hword, BitVec.toNat_ofNat]
    omega
  · intro h
    obtain ⟨hmatch, hmask⟩ := hrow h
    rw [Row.hits, beq_iff_eq, hmatch, hmask]
    apply BitVec.eq_of_toNat_eq
    rw [and_field_toNat _ (by decide), hword, BitVec.toNat_shiftLeft, BitVec.toNat_ofNat, Nat.shiftLeft_eq]
    omega

/-- The word of a well-formed command has the pattern of the command's row and of no other. -/
theorem hits_encode {i : Instr} {w : Word} (hwf : i.wellFormed = true) (he : encode i = some w) {r : Row}
    (hr : r ∈ opcodeRows) : r.hits w = true ↔ i.mnemonic = r.mnemonic := by
  revert r
  cases i with
  | setClock psc period => cases he; exact hits_setClock psc period
  | configRead idle nc => cases he; cases idle <;> cases nc <;> decide
  | configReadStop idle nc => cases he; cases idle <;> cases nc <;> decide
  | txPush type => cases he; cases type <;> decide
  | nop => cases he; decide
  | txSend => cases he; decide
  | txClearStage => cases he; decide
  | tick => cases he
  | edge v => cases he
  | reserved v =>
    cases he
    intro r hr
    have hname : ∀ r ∈ opcodeRows, "(reserved)" ≠ r.mnemonic := by decide
    refine iff_of_false (fun h => ?_) (hname r hr)
    exact Bool.false_ne_true ((legal_of_hits hr h).symm.trans hwf)

/-- Settles O4: every word is the word of the command that it decodes to. -/
theorem decoderFollowsOpcodeTable : Obligations.DecoderFollowsOpcodeTable :=
  fun w _ hr => hits_encode (decode_wellFormed w) (encode_decode w) hr

end Sys2Proof.Machine
end

section
/-! SUPPORT and proofs: the Pulse Clock (spec/40_clock.md), and what each instruction leaves unchanged. -/

namespace Sys2Proof.Machine

/-! The frame of each instruction (spec/40_clock.md to spec/42_transmit.md). Such a frame is an equation
`x' = { x with f := x'.f }`: the fields that are not named are those of `x`. -/

/-- No instruction writes the parameters or the shapes, nor what is not the block's. -/
theorem exec_keeps_surroundings {i : Instr} {s t : State} (h : exec i s = .next t) :
    t.params = s.params ∧ t.shapes = s.shapes ∧ t.hostData = s.hostData ∧ t.reader = s.reader ∧ t.pending = s.pending := by
  cases i with
  | setClock psc period =>
    obtain ⟨-, rfl⟩ | ⟨-, rfl⟩ := setClock_cases h <;> exact ⟨rfl, rfl, rfl, rfl, rfl⟩
  | configRead idle nc =>
    obtain ⟨-, rfl⟩ | ⟨-, -, -, rfl⟩ | ⟨-, -, -, rfl⟩ | ⟨-, -, rfl⟩ := configRead_cases h <;> exact ⟨rfl, rfl, rfl, rfl, rfl⟩
  | txPush type =>
    obtain ⟨-, rfl⟩ | ⟨-, rfl⟩ := txPush_cases h <;> exact ⟨rfl, rfl, rfl, rfl, rfl⟩
  | txSend =>
    obtain ⟨-, rfl⟩ | ⟨-, -, rfl⟩ | ⟨-, -, -, rfl⟩ | ⟨-, -, -, rfl⟩ := txSend_cases h <;> exact ⟨rfl, rfl, rfl, rfl, rfl⟩
  | tick =>
    obtain ⟨-, rfl⟩ | ⟨-, rfl⟩ := tick_cases h
    · exact ⟨rfl, rfl, rfl, rfl, rfl⟩
    · exact ⟨tickCapture_params s, tickCapture_shapes s, tickCapture_hostData s, tickCapture_reader s, tickCapture_pending s⟩
  | edge v =>
    obtain ⟨-, rfl⟩ | ⟨-, -, rfl⟩ | ⟨-, -, -, rfl⟩ | ⟨-, -, -, rfl⟩ | ⟨-, -, rfl⟩ | ⟨-, -, rfl⟩ := edge_cases h <;>
      exact ⟨rfl, rfl, rfl, rfl, rfl⟩
  | nop => cases h; exact ⟨rfl, rfl, rfl, rfl, rfl⟩
  | configReadStop idle nc => cases h; exact ⟨rfl, rfl, rfl, rfl, rfl⟩
  | txClearStage => cases h; exact ⟨rfl, rfl, rfl, rfl, rfl⟩
  | reserved w => cases h; exact ⟨rfl, rfl, rfl, rfl, rfl⟩

/-- What is no event is a command. -/
theorem isCommand_of_not_event {i : Instr} (ht : i ≠ .tick) (he : ∀ v, i ≠ .edge v) : i.isCommand = true := by
  cases i with
  | tick => exact absurd rfl ht
  | edge v => exact absurd rfl (he v)
  | _ => rfl

section
variable {s t : State}

/-- SET_CLOCK reaches no other field of the capture and of the transmitter than their counters. -/
theorem setClock_frame {psc : BitVec 4} {period : BitVec 24} (h : exec (.setClock psc period) s = .next t) :
    t.cap = { s.cap with count := t.cap.count } ∧ t.tx = { s.tx with count := t.tx.count } := by
  obtain ⟨-, rfl⟩ | ⟨-, rfl⟩ := setClock_cases h <;> exact ⟨rfl, rfl⟩

theorem configRead_frame {idle nc : Bool} (h : exec (.configRead idle nc) s = .next t) :
    t.tx = s.tx ∧
      t.cap = { s.cap with en := t.cap.en, idle := t.cap.idle, nc := t.cap.nc, phase := t.cap.phase } := by
  obtain ⟨-, rfl⟩ | ⟨-, -, -, rfl⟩ | ⟨-, -, -, rfl⟩ | ⟨-, -, rfl⟩ := configRead_cases h <;> exact ⟨rfl, rfl⟩

theorem configReadStop_frame {idle nc : Bool} (h : exec (.configReadStop idle nc) s = .next t) :
    t.tx = s.tx ∧ t.cap = { s.cap with en := t.cap.en, phase := t.cap.phase, first := t.cap.first } := by
  cases h
  exact ⟨rfl, rfl⟩

theorem txPush_frame {type : EdgeType} (h : exec (.txPush type) s = .next t) :
    t.cap = s.cap ∧ t.tx = { s.tx with stage := t.tx.stage } := by
  obtain ⟨-, rfl⟩ | ⟨-, rfl⟩ := txPush_cases h <;> exact ⟨rfl, rfl⟩

theorem txClearStage_frame (h : exec .txClearStage s = .next t) : t.cap = s.cap ∧ t.tx = { s.tx with stage := [] } := by
  cases h
  exact ⟨rfl, rfl⟩

/-- An accepted TX_SEND leaves TX_IDLE, TX_CNT and TXD. -/
theorem sendStage_frame (p : Params) (tx : Tx) :
    let u := sendStage p tx
    u = { tx with queue := u.queue, stage := u.stage, cursor := u.cursor, pinOut := u.pinOut, cmp := u.cmp,
                  presel := u.presel } := by
  unfold sendStage
  split
  · rfl
  · split <;> rfl

theorem txSend_frame (h : exec .txSend s = .next t) :
    t.cap = s.cap ∧ t.tx =
      { s.tx with queue := t.tx.queue, stage := t.tx.stage, cursor := t.tx.cursor, pinOut := t.tx.pinOut,
                  cmp := t.tx.cmp, presel := t.tx.presel } := by
  obtain ⟨-, rfl⟩ | ⟨-, -, rfl⟩ | ⟨-, -, -, rfl⟩ | ⟨-, -, -, rfl⟩ := txSend_cases h
  · exact ⟨rfl, rfl⟩
  · exact ⟨rfl, rfl⟩
  · exact ⟨rfl, rfl⟩
  · exact ⟨rfl, sendStage_frame s.params s.tx⟩

/-- The capture part of a TICK writes no other capture field than CAP_CNT and PHASE. -/
theorem tickCapture_cap (s : State) :
    let c := (tickCapture s).cap
    c = { s.cap with count := c.count, phase := c.phase } := by
  obtain ⟨e, -⟩ | ⟨-, -, e⟩ | ⟨-, -, e⟩ := tickCapture_cases s <;> rw [e] <;> rfl

/-- The transmit part of a TICK leaves TX_IDLE, the stage and TXD. -/
theorem tickTx_fields (p : Params) (tx : Tx) :
    let u := tickTx p tx
    u = { tx with queue := u.queue, cursor := u.cursor, pinOut := u.pinOut, cmp := u.cmp, presel := u.presel,
                  count := u.count } := by
  unfold tickTx compareMatch
  dsimp only
  split
  · split <;> rfl
  · rfl

theorem tick_frame (h : exec .tick s = .next t) :
    t.cap = { s.cap with count := t.cap.count, phase := t.cap.phase } ∧
      t.tx = { s.tx with queue := t.tx.queue, cursor := t.tx.cursor, pinOut := t.tx.pinOut, cmp := t.tx.cmp,
                         presel := t.tx.presel, count := t.tx.count } := by
  obtain ⟨-, rfl⟩ | ⟨-, rfl⟩ := tick_cases h
  · exact ⟨rfl, rfl⟩
  · exact ⟨tickCapture_cap s, tickTx_fields s.params s.tx⟩

theorem edge_frame {v : Level} (h : exec (.edge v) s = .next t) :
    t.tx = s.tx ∧ t.cap =
      { s.cap with pinIn := t.cap.pinIn, count := t.cap.count, phase := t.cap.phase, edgeType := t.cap.edgeType,
                   first := t.cap.first } := by
  obtain ⟨-, rfl⟩ | ⟨-, -, rfl⟩ | ⟨-, -, -, rfl⟩ | ⟨-, -, -, rfl⟩ | ⟨-, -, rfl⟩ | ⟨-, -, rfl⟩ := edge_cases h <;>
    exact ⟨rfl, rfl⟩

end

/-- Settles O26: the frame lemma of each instruction; only SET_CLOCK writes the clock and only events consume pulses. -/
theorem instructionFrames : Obligations.InstructionFrames := by
  intro i s t h
  obtain ⟨hparams, hshapes, hdata, hreader, hpending⟩ := exec_keeps_surroundings h
  refine ⟨hparams, hshapes, hdata, hreader, hpending, ?clock, ?pulses, ?capKept, ?txKept, ?push, ?clear, ?config, ?stop,
    ?setClock, ?send, ?tick, ?edge⟩
  case clock =>
    intro hi
    exact (exec_clock h).resolve_right fun ⟨psc, period, e, _⟩ => hi psc period e
  case pulses => exact fun ht he => command_quiet (isCommand_of_not_event ht he) h
  case capKept =>
    rintro (rfl | rfl | rfl | ⟨type, rfl⟩ | ⟨w, rfl⟩)
    · cases h; rfl
    · exact (txSend_frame h).1
    · exact (txClearStage_frame h).1
    · exact (txPush_frame h).1
    · cases h; rfl
  case txKept =>
    rintro (rfl | ⟨idle, nc, rfl⟩ | ⟨idle, nc, rfl⟩ | ⟨v, rfl⟩ | ⟨w, rfl⟩)
    · cases h; rfl
    · exact (configRead_frame h).1
    · exact (configReadStop_frame h).1
    · exact (edge_frame h).1
    · cases h; rfl
  case push => rintro type rfl; exact (txPush_frame h).2
  case clear => rintro rfl; exact (txClearStage_frame h).2
  case config => rintro idle nc rfl; exact (configRead_frame h).2
  case stop => rintro idle nc rfl; exact (configReadStop_frame h).2
  case setClock => rintro psc period rfl; exact setClock_frame h
  case send => rintro rfl; exact (txSend_frame h).2
  case tick => rintro rfl; exact ⟨tick_result h, tick_frame h⟩
  case edge => rintro v rfl; exact ⟨edge_result h, (edge_frame h).2⟩

/-! NOP and SET_CLOCK. -/

/-- The word 0 alone is NOP: a word that decodes to NOP is NOP's word. -/
theorem decode_eq_nop_iff (w : Word) : decode w = .nop ↔ w = 0 := by
  constructor
  · intro h
    have hw : encode .nop = some w := h ▸ encode_decode w
    exact (Option.some.inj hw).symm
  · rintro rfl
    decide

/-- Settles O17: with OP 0 the whole ARG is reserved, so a word other than 0 is illegal. -/
theorem nopReportsOk : Obligations.NopReportsOk := by
  refine ⟨rfl, rfl, fun _ => rfl, decode_eq_nop_iff, fun w s hop hne => ?_⟩
  have harg : w.toNat % 2 ^ 28 ≠ 0 := by
    rw [ushiftRight28_toNat] at hop
    intro h
    exact hne (BitVec.eq_of_toNat_eq (show w.toNat = 0 by omega))
  rw [(decode_eq_reserved_iff w).2 ((illegalWord_iff w).2 (.inr (.inl ⟨by simp [hop], harg⟩)))]
  rfl

/-- The decoder takes PSC and PERIOD out of every word with OP 1. -/
theorem decode_op_one {w : Word} (hop : (w >>> 28).toNat = 1) : decode w = .setClock (pscField w) (periodField w) := by
  have hop : (opField w).toNat = 1 := by rw [opField_toNat, ← ushiftRight28_toNat, hop]
  simp only [decode, hop]

theorem pscField_eq (w : Word) : pscField w = BitVec.ofNat 4 (w.toNat % 2 ^ 4) := by
  apply BitVec.eq_of_toNat_eq
  simp [pscField]

theorem periodField_eq (w : Word) : periodField w = BitVec.ofNat 24 (w.toNat / 2 ^ 4 % 2 ^ 24) := by
  apply BitVec.eq_of_toNat_eq
  simp [periodField, Nat.shiftRight_eq_div_pow]

/-- The busy condition of R111. -/
theorem clockBusy_iff (s : State) : clockBusy s = true ↔ s.cap.en = true ∨ 0 < s.tx.queue.length := by
  simp [clockBusy]

/-- Settles O18: OP 1 reserves no bit of ARG; the two outcomes are the two branches of the busy check. -/
theorem setClockEffect : Obligations.SetClockEffect := by
  refine ⟨rfl, rfl, fun w hop => ?_, fun psc period s => ⟨fun hbusy => ?_, fun hen hlen => ?_⟩⟩
  · rw [decode_op_one hop, pscField_eq, periodField_eq]
  · exact if_pos ((clockBusy_iff s).2 hbusy)
  · exact if_neg (by simp [clockBusy_iff, hen, hlen])

/-! TICK. -/

/-- The capture part of a TICK that closes no half only counts. -/
theorem tickCapture_of_no_overflow {s : State}
    (h : s.cap.count.toNat ≠ modulus s.params - 1 ∨ s.cap.phase.halfPending = false) :
    tickCapture s = s.setCap { s.cap with count := wrap s.params (s.cap.count.toNat + 1) } := by
  obtain ⟨e, -⟩ | ⟨hph, hwrap, -⟩ | ⟨hph, hwrap, -⟩ := tickCapture_cases s
  · exact e
  · simp [hph, hwrap, Phase.halfPending] at h
  · simp [hph, hwrap, Phase.halfPending] at h

/-- The transmit part of a TICK with no match only counts. -/
theorem tickTx_of_no_match {p : Params} {tx : Tx} (h : tx.queue.length = 0 ∨ wrap p (tx.count.toNat + 1) ≠ tx.cmp) :
    tickTx p tx = { tx with count := wrap p (tx.count.toNat + 1) } := by
  refine if_neg ?_
  rintro ⟨hbusy, hmatch⟩
  exact h.elim (by simpa [Nat.pos_iff_ne_zero] using hbusy) (absurd hmatch)

/-- Settles O19: neither part of the TICK does more than count. -/
theorem tickCountsBothCounters : Obligations.TickCountsBothCounters := by
  intro s hp hclk hmatch hover
  have htx : tickTx s.params s.tx = { s.tx with count := wrap s.params (s.tx.count.toNat + 1) } :=
    tickTx_of_no_match (hmatch.imp_right fun hne e => hne (by rw [← e, wrap_toNat hp]; rfl))
  have hcap : tickCapture s = s.setCap { s.cap with count := wrap s.params (s.cap.count.toNat + 1) } := by
    apply tickCapture_of_no_overflow
    obtain hne | hph | hph := hover
    · have hpos := modulus_pos s.params
      have hne : s.cap.count.toNat + 1 ≠ modulus s.params := hne
      exact .inl (by omega)
    · exact .inr (by rw [hph]; rfl)
    · exact .inr (by rw [hph]; rfl)
  refine (execTick_eq hclk).trans ?_
  rw [hcap, htx]
  rfl

/-- A capture part at the wrap of CAP_CNT counts and takes the overflow. -/
theorem tickCapture_of_wrap {s : State} (h : s.cap.count.toNat = modulus s.params - 1) :
    tickCapture s = captureOverflow (s.setCap { s.cap with count := wrap s.params (s.cap.count.toNat + 1) }) :=
  if_pos h

/-- The capture overflow neither reads nor writes the transmit fields. -/
theorem captureOverflow_setTx (tx : Tx) (s : State) : captureOverflow (s.setTx tx) = (captureOverflow s).setTx tx := by
  unfold captureOverflow
  rw [State.setTx_cap]
  cases s.cap.phase with
  | off => rfl
  | waitStart => rfl
  | first => rfl
  | second => rfl

/-- Nor does the capture part of a TICK. -/
theorem tickCapture_setTx (tx : Tx) (s : State) : tickCapture (s.setTx tx) = (tickCapture s).setTx tx := by
  by_cases hwrap : s.cap.count.toNat = modulus s.params - 1
  · rw [tickCapture_of_wrap hwrap, tickCapture_of_wrap (s := s.setTx tx) hwrap, ← captureOverflow_setTx]
    rfl
  · rw [tickCapture_of_no_wrap hwrap, tickCapture_of_no_wrap (s := s.setTx tx) hwrap]
    rfl

/-- Settles O20: the model takes the capture part first, and that part commutes with writing the transmit fields. -/
theorem tickPartsCommute : Obligations.TickPartsCommute := by
  intro s hclk
  rw [tickCapture_setTx]
  exact ⟨execTick_eq hclk, execTick_eq hclk⟩

end Sys2Proof.Machine
end

section
/-! SUPPORT and proofs: Pulse Capture (spec/41_capture.md). -/

namespace Sys2Proof.Machine

/-! CONFIG_READ (spec/41_capture.md R130, R131). -/

/-- A half is pending in PHASE First and Second only. -/
theorem halfPending_iff (ph : Phase) : ph.halfPending = true ↔ ph = .first ∨ ph = .second := by
  cases ph <;> decide

theorem not_halfPending_iff (ph : Phase) : ph.halfPending = false ↔ ph = .off ∨ ph = .waitStart := by
  cases ph <;> decide

theorem eq_configRead_of_mnemonic {i : Instr} (h : i.mnemonic = "CONFIG_READ") :
    ∃ idle nc, i = .configRead idle nc := by
  cases i with
  | configRead idle nc => exact ⟨idle, nc, rfl⟩
  | _ => simp [Instr.mnemonic] at h

theorem eq_configReadStop_of_mnemonic {i : Instr} (h : i.mnemonic = "CONFIG_READ__stop__pseudo_stop_reading") :
    ∃ idle nc, i = .configReadStop idle nc := by
  cases i with
  | configReadStop idle nc => exact ⟨idle, nc, rfl⟩
  | _ => simp [Instr.mnemonic] at h

/-- In a word of either row of CONFIG_READ, IDLE is bit 1 and NC is bit 2 (R80). -/
theorem configRead_fields (en : Bool) {idle nc : Bool} {w : Word}
    (h : decode w = if en then .configRead idle nc else .configReadStop idle nc) :
    w.getLsbD 1 = idle ∧ w.getLsbD 2 = nc := by
  have he := encode_decode w
  rw [h, encode_configRead] at he
  cases he
  cases en <;> cases idle <;> cases nc <;> decide

/-- A word with the pattern of either row of CONFIG_READ decodes to that row. -/
theorem decode_configRead_row (en : Bool) {w : Word}
    (h : w &&& 0xFFFFFFF9#32 = if en then 0x20000001#32 else 0x20000000#32) :
    decode w =
      if en then .configRead (w.getLsbD 1) (w.getLsbD 2) else .configReadStop (w.getLsbD 1) (w.getLsbD 2) := by
  have hrow := decoderFollowsOpcodeTable w
  obtain ⟨idle, nc, hd⟩ : ∃ idle nc, decode w = if en then .configRead idle nc else .configReadStop idle nc := by
    cases en with
    | true =>
      exact eq_configRead_of_mnemonic
        ((hrow ⟨"CONFIG_READ", 0x20000001#32, 0xFFFFFFF9#32⟩ (by decide)).1 (beq_iff_eq.2 h))
    | false =>
      exact eq_configReadStop_of_mnemonic
        ((hrow ⟨"CONFIG_READ__stop__pseudo_stop_reading", 0x20000000#32, 0xFFFFFFF9#32⟩ (by decide)).1
          (beq_iff_eq.2 h))
  obtain ⟨rfl, rfl⟩ := configRead_fields en hd
  exact hd

/-- With the clock set, and the idle level kept if a half is pending, CONFIG_READ is accepted. -/
theorem configRead_accepted {idle nc : Bool} {s : State} (hclk : s.clock.clkSet = true)
    (h : s.cap.phase.halfPending = false ∨ idle = s.cap.idle) :
    exec (.configRead idle nc) s =
      .next { s with
        cap := { s.cap with
          phase := if s.cap.phase = .off ∨ idle ≠ s.cap.idle then .waitStart else s.cap.phase
          idle := idle, nc := nc, en := true }
        result := .ok } := by
  refine (if_neg (by simp [hclk])).trans (if_neg ?_)
  rintro ⟨hpend, hne⟩
  exact h.elim (by simp [hpend]) hne

/-- Settles O27: the branches of R130; a pending half with the same idle level leaves PHASE alone. -/
theorem configReadEffect : Obligations.ConfigReadEffect := by
  refine ⟨rfl, rfl, rfl, fun _ => decode_configRead_row true, fun idle nc s => ⟨fun hclk => if_pos hclk, ?_, ?_, ?_⟩⟩
  · intro hclk hph hne
    exact (if_neg (by simp [hclk])).trans (if_pos ⟨(halfPending_iff _).2 hph, hne⟩)
  · rintro hclk hph rfl
    rw [configRead_accepted hclk (.inr rfl)]
    obtain hph | hph := hph <;> simp [hph]
  · intro hclk hph
    rw [configRead_accepted hclk (.inl ((not_halfPending_iff _).2 hph))]
    obtain hph | hph := hph <;> simp [hph]

/-- Settles O28: the stop has one outcome. -/
theorem stopReadingEffect : Obligations.StopReadingEffect :=
  ⟨rfl, fun _ => decode_configRead_row false, fun _ _ _ => rfl⟩

/-! EDGE (spec/41_capture.md R133 to R137). -/

section
variable {v : Level} {s : State}

theorem exec_edge_same (h : v = s.cap.pinIn) : exec (.edge v) s = .next s := if_pos h

theorem exec_edge_change (h : v ≠ s.cap.pinIn) :
    exec (.edge v) s = .next (captureEdge v (s.setCap { s.cap with pinIn := v })) := if_neg h

theorem captureEdge_off (h : s.cap.phase = .off) : captureEdge v s = s := by
  simp only [captureEdge, h]

theorem captureEdge_start (h : s.cap.phase = .waitStart) (hv : v ≠ s.cap.idle) :
    captureEdge v s = s.setCap { s.cap with count := 0, edgeType := edgeTypeOfIdle s.cap.idle, phase := .first } := by
  simp only [captureEdge, h, edgeWaitStart, if_pos hv]

theorem captureEdge_to_idle (h : s.cap.phase = .waitStart) (hv : v = s.cap.idle) : captureEdge v s = s := by
  simp [captureEdge, h, edgeWaitStart, hv]

theorem captureEdge_first (h : s.cap.phase = .first) : captureEdge v s = edgeEndFirst s := by
  simp only [captureEdge, h]

theorem captureEdge_second (h : s.cap.phase = .second) : captureEdge v s = edgeEndSecond s := by
  simp only [captureEdge, h]

/-- The start edge (R134). -/
theorem exec_edge_start (hph : s.cap.phase = .waitStart) (hpin : v ≠ s.cap.pinIn) (hv : v ≠ s.cap.idle) :
    exec (.edge v) s =
      .next { s with cap :=
        { s.cap with pinIn := v, count := 0, edgeType := edgeTypeOfIdle s.cap.idle, phase := .first } } := by
  rw [exec_edge_change hpin, captureEdge_start (by exact hph) (by exact hv)]
  rfl

/-- The edge that ends the first half (R135). -/
theorem exec_edge_first (hph : s.cap.phase = .first) (hpin : v ≠ s.cap.pinIn) :
    exec (.edge v) s =
      .next { s with cap := { s.cap with pinIn := v, first := s.cap.count, count := 0, phase := .second } } := by
  rw [exec_edge_change hpin, captureEdge_first (by exact hph)]
  rfl

/-- The edge that ends the second half (R136). -/
theorem exec_edge_second (hph : s.cap.phase = .second) (hpin : v ≠ s.cap.pinIn) :
    exec (.edge v) s =
      .next (emit { first := s.cap.first, second := s.cap.count, type := s.cap.edgeType }
        (s.setCap { s.cap with pinIn := v, count := 0, phase := .first })) := by
  rw [exec_edge_change hpin, captureEdge_second (by exact hph)]
  rfl

end

/-- A low first half is Rising (R134). -/
theorem edgeTypeOfIdle_eq (idle : Level) : edgeTypeOfIdle idle = if idle then .rising else .falling := by
  cases idle <;> rfl

/-- Settles O29: Off ignores the edge, and WaitStart looks at its level. -/
theorem startEdgeArmsCapture : Obligations.StartEdgeArmsCapture := by
  intro s v
  have hpin : v ≠ s.cap.pinIn := by simp [v]
  refine ⟨fun hph => ?_, fun hph hv => ?_, fun hph hv => ?_⟩
  · rw [exec_edge_change hpin, captureEdge_off (by exact hph)]
    rfl
  · rw [exec_edge_change hpin, captureEdge_to_idle (by exact hph) (by exact hv)]
    rfl
  · rw [exec_edge_start hph hpin hv, edgeTypeOfIdle_eq]

/-- Settles O30: the invariant has the level of the pin in each half, and an edge leaves that level. -/
theorem closingEdgesRecordAndEmit : Obligations.ClosingEdgesRecordAndEmit := by
  intro s v p
  have hpin : v ≠ s.cap.pinIn := by simp [v]
  refine ⟨fun h hph => ?_, fun h hph => ?_, fun hph => exec_edge_first hph hpin, fun hph => exec_edge_second hph hpin⟩
  · simp [v, h.cap.pinFirst hph]
  · simp [v, h.cap.pinSecond hph]

/-! The capture overflow (spec/41_capture.md R138). -/

theorem captureOverflow_of_not_pending {s : State} (h : s.cap.phase.halfPending = false) : captureOverflow s = s := by
  obtain h | h := (not_halfPending_iff _).1 h <;> simp only [captureOverflow, h]

/-- The pulse that closes a pending half: a half that has not ended reads OVERFLOW. -/
theorem captureOverflow_of_pending {s : State} (h : s.cap.phase.halfPending = true) :
    captureOverflow s =
      emit
        { first := if s.cap.phase = .first then overflow s.params else s.cap.first
          second := overflow s.params
          type := s.cap.edgeType }
        (s.setCap { s.cap with phase := .waitStart }) := by
  obtain h | h := (halfPending_iff _).1 h <;> simp [captureOverflow, h]

/-- At the wrap of CAP_CNT, the capture part of a TICK clears it and takes the overflow. -/
theorem tickCapture_at_wrap {s : State} (h : s.cap.count.toNat + 1 = modulus s.params) :
    tickCapture s = captureOverflow (s.setCap { s.cap with count := 0 }) := by
  rw [tickCapture_of_wrap (by omega), h, wrap, Nat.mod_self]
  rfl

/-- Settles O31: the wrap of CAP_CNT takes the capture overflow, and the transmit part is separate. -/
theorem captureOverflowEmits : Obligations.CaptureOverflowEmits := by
  intro s _ hclk hwrap ov p
  have htick : exec .tick s = _ := execTick_eq hclk
  rw [tickCapture_at_wrap hwrap] at htick
  constructor
  · intro hph
    rw [htick, captureOverflow_of_not_pending (by exact (not_halfPending_iff _).2 hph)]
    rfl
  · intro hph
    rw [htick, captureOverflow_of_pending (by exact (halfPending_iff _).2 hph)]
    rfl

/-! What events do not read (spec/41_capture.md R141, spec/10_state.md R25). -/

/-- The state with other values of NC, PSC and PERIOD. -/
def State.setUnread (nc : Bool) (psc : BitVec 4) (period : BitVec 24) (s : State) : State :=
  { s with cap := { s.cap with nc := nc }, clock := { s.clock with psc := psc, period := period } }

section
variable (nc : Bool) (psc : BitVec 4) (period : BitVec 24) (s : State)

theorem captureOverflow_setUnread :
    captureOverflow (s.setUnread nc psc period) = (captureOverflow s).setUnread nc psc period := by
  cases hpend : s.cap.phase.halfPending with
  | false => rw [captureOverflow_of_not_pending hpend, captureOverflow_of_not_pending (by exact hpend)]
  | true =>
    rw [captureOverflow_of_pending hpend, captureOverflow_of_pending (by exact hpend)]
    rfl

theorem tickCapture_setUnread : tickCapture (s.setUnread nc psc period) = (tickCapture s).setUnread nc psc period := by
  by_cases hwrap : s.cap.count.toNat = modulus s.params - 1
  · rw [tickCapture_of_wrap hwrap, tickCapture_of_wrap (by exact hwrap), ← captureOverflow_setUnread]
    rfl
  · rw [tickCapture_of_no_wrap hwrap, tickCapture_of_no_wrap (by exact hwrap)]
    rfl

theorem captureEdge_setUnread (v : Level) :
    captureEdge v (s.setUnread nc psc period) = (captureEdge v s).setUnread nc psc period := by
  cases hph : s.cap.phase with
  | off => rw [captureEdge_off hph, captureEdge_off (by exact hph)]
  | waitStart =>
    by_cases hv : v = s.cap.idle
    · rw [captureEdge_to_idle hph hv, captureEdge_to_idle (by exact hph) (by exact hv)]
    · rw [captureEdge_start hph hv, captureEdge_start (by exact hph) (by exact hv)]
      rfl
  | first =>
    rw [captureEdge_first hph, captureEdge_first (by exact hph)]
    rfl
  | second =>
    rw [captureEdge_second hph, captureEdge_second (by exact hph)]
    rfl

end

/-- Settles O35: each part of an event commutes with changing the three fields. -/
theorem eventsIgnoreNcPscAndPeriod : Obligations.EventsIgnoreNcPscAndPeriod := by
  intro i s t nc psc period hi h
  show exec i (s.setUnread nc psc period) = .next (t.setUnread nc psc period)
  cases i with
  | tick =>
    obtain ⟨hclk, rfl⟩ | ⟨hclk, rfl⟩ := tick_cases h
    · exact if_neg (by simpa [State.setUnread] using hclk)
    · refine (execTick_eq (by exact hclk)).trans ?_
      rw [tickCapture_setUnread]
      rfl
  | edge v =>
    by_cases hv : v = s.cap.pinIn
    · cases (exec_edge_same hv).symm.trans h
      exact exec_edge_same hv
    · cases (exec_edge_change hv).symm.trans h
      refine (exec_edge_change (by exact hv)).trans ?_
      rw [← captureEdge_setUnread]
      rfl
  | _ => exact absurd hi (by simp [Instr.isCommand])

/-! Runs of TICKs and edges (spec/41_capture.md R134 to R139). -/

/-- A run whose next stimulus goes on. -/
theorem run_perform (k : Nat) {a : Stimulus} {s t : State} {rest : List Stimulus} (hpend : s.pending = a :: rest)
    (h : perform a (s.setPending rest) = .next t) : core.run (k + 1) s = core.run k t := by
  have hstep : step s = .next t := by rw [step, hpend]; exact h
  exact run_succ (M := core) k hstep

/-- The state with `n` ticks counted, none of which wraps CAP_CNT, and the rest still pending. -/
def State.afterTicks (n : Nat) (rest : List Stimulus) (s : State) : State :=
  ((s.setCap { s.cap with count := BitVec.ofNat 16 (n + s.cap.count.toNat) }).setTx
    ((tickTx s.params)^[n] s.tx)).setPending rest

theorem afterTicks_zero (s : State) : s.afterTicks 0 s.pending = s := by
  simp [State.afterTicks, State.setCap, State.setTx, State.setPending]

/-- One tick, then `n` more. -/
theorem afterTicks_succ {c : Half} {s : State} (hc : c.toNat = s.cap.count.toNat + 1) (n : Nat)
    (r rest : List Stimulus) :
    (((s.setCap { s.cap with count := c }).setTx (tickTx s.params s.tx)).setPending r).afterTicks n rest =
      s.afterTicks (n + 1) rest := by
  have hsum : n + c.toNat = n + 1 + s.cap.count.toNat := by omega
  simp only [State.afterTicks, State.setPending_cap, State.setTx_cap, State.setCap_cap, hsum]
  rfl

/-- `n` ticks that do not wrap CAP_CNT only count. -/
theorem run_ticks (k : Nat) {n : Nat} {s : State} {rest : List Stimulus} (hp : s.params.Valid)
    (hclk : s.clock.clkSet = true) (hpend : s.pending = List.replicate n .tick ++ rest)
    (hfit : n + s.cap.count.toNat < modulus s.params) :
    core.run (k + n) s = core.run k (s.afterTicks n rest) := by
  induction n generalizing s with
  | zero => rw [show rest = s.pending from hpend.symm, afterTicks_zero, Nat.add_zero]
  | succ n ih =>
    have hcount : (wrap s.params (s.cap.count.toNat + 1)).toNat = s.cap.count.toNat + 1 := by
      rw [wrap_toNat hp, Nat.mod_eq_of_lt (by omega)]
    have hpend : s.pending = .tick :: (List.replicate n .tick ++ rest) := hpend
    have hstep := step_tick hclk hpend
    rw [tickCapture_of_no_wrap (by omega)] at hstep
    refine (run_succ (M := core) (k + n) hstep).trans ?_
    rw [ih (by exact hp) (by exact hclk) rfl (by simpa [hcount] using by omega), afterTicks_succ hcount]

/-- The state in which a first half begins. -/
def State.firstHalf (rest : List Stimulus) (s : State) : State :=
  (s.setCap
    { s.cap with
      pinIn := !s.cap.idle, count := 0, edgeType := edgeTypeOfIdle s.cap.idle, phase := .first }).setPending rest

/-- The state in which the second half begins, after a first half of `n` ticks that began in `s`. -/
def State.secondHalf (n : Nat) (rest : List Stimulus) (s : State) : State :=
  ((s.setCap
    { s.cap with
      pinIn := s.cap.idle, first := BitVec.ofNat 16 n, count := 0, edgeType := edgeTypeOfIdle s.cap.idle,
      phase := .second }).setTx ((tickTx s.params)^[n] s.tx)).setPending rest

theorem clkSet_of_waitStart {s : State} (h : s.Inv) (hph : s.cap.phase = .waitStart) : s.clock.clkSet = true :=
  h.enClk (h.cap.en_of_phase (by simp [hph]))

section
variable {s : State} (hph : s.cap.phase = .waitStart) (hpin : s.cap.pinIn = s.cap.idle) {rest : List Stimulus}
include hph hpin

/-- The start edge begins the first half. -/
theorem run_start_edge (k : Nat) (hpend : s.pending = .edge (!s.cap.idle) :: rest) :
    core.run (k + 1) s = core.run k (s.firstHalf rest) := by
  have hstart : (!s.cap.idle) ≠ s.cap.idle := by simp
  have hedge := exec_edge_start (s := s.setPending rest) hph (fun e => hstart (e.trans hpin)) hstart
  exact run_perform k hpend hedge

/-- A start edge, `n` ticks and an edge begin the second half. -/
theorem run_first_half (h : s.Inv) (k : Nat) {n : Nat} (hn : n < modulus s.params)
    (hpend : s.pending = .edge (!s.cap.idle) :: (List.replicate n .tick ++ .edge s.cap.idle :: rest)) :
    core.run (k + 1 + n + 1) s = core.run k (s.secondHalf n rest) := by
  have hclk := clkSet_of_waitStart h hph
  have hend : s.cap.idle ≠ !s.cap.idle := by simp
  let u := s.firstHalf (List.replicate n .tick ++ .edge s.cap.idle :: rest)
  calc core.run (k + 1 + n + 1) s
    _ = core.run (k + 1 + n) u := run_start_edge hph hpin _ hpend
    _ = core.run (k + 1) (u.afterTicks n (.edge s.cap.idle :: rest)) :=
      run_ticks _ h.paramsValid hclk rfl hn
    _ = core.run k (s.secondHalf n rest) := run_perform _ rfl (exec_edge_first rfl hend)

end

/-- A run that ends with the edge that ends a second half emits the pulse. -/
theorem run_last_edge {u : State} {v : Level} (hpend : u.pending = [.edge v]) (hph : u.cap.phase = .second)
    (hv : v ≠ u.cap.pinIn) :
    ∃ t, core.run 1 u = .next t ∧
      t.last = { pulse := { first := u.cap.first, second := u.cap.count, type := u.cap.edgeType },
                 valid := true, pcount := u.last.pcount + 1 } ∧
      t.cap.phase = .first ∧ t.cap.count = 0 ∧ (t.fsa, t.mbx) = fsaStep u.shapes t.last.pulse u.fsa u.mbx :=
  ⟨_, run_perform 0 hpend (exec_edge_second hph hv), rfl, rfl, rfl, rfl⟩

/-- A run that ends with the tick that wraps CAP_CNT in a second half emits a pulse that reads OVERFLOW. -/
theorem run_last_wrap {u : State} (hp : u.params.Valid) (hclk : u.clock.clkSet = true) (hpend : u.pending = [.tick])
    (hph : u.cap.phase = .second) (hcount : u.cap.count.toNat + 1 = 2 ^ u.params.w) :
    ∃ t, core.run 1 u = .next t ∧
      t.last = { pulse := { first := u.cap.first, second := BitVec.ofNat 16 (2 ^ u.params.w - 1),
                            type := u.cap.edgeType },
                 valid := true, pcount := u.last.pcount + 1 } ∧
      t.cap.phase = .waitStart ∧ t.cap.count = 0 := by
  obtain ⟨-, htick⟩ := captureOverflowEmits (u.setPending []) hp hclk hcount
  refine ⟨_, run_perform 0 hpend (htick (.inr hph)), ?_, rfl, rfl⟩
  simp [hph]

/-- Settles O32: in each half the ticks count up to its length, and the edge that ends the second half emits both. -/
theorem emittedPulseMeasuresTicks : Obligations.EmittedPulseMeasuresTicks := by
  intro s n1 n2 h hph hpin hn1 hn2 hpend
  have hclk := clkSet_of_waitStart h hph
  have hleave : (!s.cap.idle) ≠ s.cap.idle := by simp
  let u := (s.secondHalf n1 (List.replicate n2 .tick ++ [.edge (!s.cap.idle)])).afterTicks n2 [.edge (!s.cap.idle)]
  have hrun : core.run (1 + n2 + 1 + n1 + 1) s = core.run 1 u :=
    (run_first_half hph hpin h _ hn1 hpend).trans (run_ticks 1 h.paramsValid hclk rfl hn2)
  obtain ⟨t, ht, hlast, hend⟩ := run_last_edge (u := u) rfl rfl hleave
  rw [show n1 + n2 + 3 = 1 + n2 + 1 + n1 + 1 by omega, ← edgeTypeOfIdle_eq]
  exact ⟨t, hrun.trans ht, hlast, hend⟩

/-- Settles O33: the second half counts up to `2^W - 1`, and the next tick takes the capture overflow. -/
theorem unendedHalfReadsOverflow : Obligations.UnendedHalfReadsOverflow := by
  intro s n1 h hph hpin hn1 hpend
  have hclk := clkSet_of_waitStart h hph
  obtain ⟨m, hm⟩ : ∃ m, 2 ^ s.params.w = m + 1 := Nat.exists_eq_succ_of_ne_zero (modulus_pos s.params).ne'
  rw [hm, List.replicate_succ'] at hpend
  let u := (s.secondHalf n1 (List.replicate m .tick ++ [.tick])).afterTicks m [.tick]
  have hfit : m < 2 ^ s.params.w := by omega
  have hrun : core.run (1 + m + 1 + n1 + 1) s = core.run 1 u :=
    (run_first_half hph hpin h _ hn1 hpend).trans (run_ticks 1 h.paramsValid hclk rfl hfit)
  have hcount : (BitVec.ofNat 16 m).toNat + 1 = 2 ^ s.params.w := by
    have hle : 2 ^ s.params.w ≤ 2 ^ 16 := modulus_le h.paramsValid
    rw [BitVec.toNat_ofNat]
    omega
  obtain ⟨t, ht, hlast, hend⟩ := run_last_wrap (u := u) h.paramsValid hclk rfl rfl hcount
  rw [show n1 + 2 ^ s.params.w + 2 = 1 + m + 1 + n1 + 1 by omega, ← edgeTypeOfIdle_eq]
  exact ⟨t, hrun.trans ht, hlast, hend⟩

end Sys2Proof.Machine
end

section
/-! SUPPORT and proofs: the Pulse Transmit Queue (spec/42_transmit.md). -/

namespace Sys2Proof.Machine

/-! Staging (spec/42_transmit.md R161, R162). -/

theorem eq_txPush_of_mnemonic {i : Instr} (h : i.mnemonic = "TX_PUSH") : ∃ type, i = .txPush type := by
  cases i with
  | txPush type => exact ⟨type, rfl⟩
  | _ => simp [Instr.mnemonic] at h

/-- The edge_type of a TX_PUSH word is its bit 0 (R80, R88). -/
theorem txPush_type_field {type : EdgeType} {w : Word} (h : decode w = .txPush type) :
    type = if w.getLsbD 0 then .falling else .rising := by
  have he := encode_decode w
  rw [h] at he
  cases he
  cases type <;> decide

/-- A word with the pattern of the row of TX_PUSH decodes to that row. -/
theorem decode_txPush_row {w : Word} (h : w &&& 0xFFFFFFFE#32 = 0x30000000#32) :
    decode w = .txPush (if w.getLsbD 0 then .falling else .rising) := by
  have hrow := decoderFollowsOpcodeTable w ⟨"TX_PUSH", 0x30000000#32, 0xFFFFFFFE#32⟩ (by decide)
  obtain ⟨type, hd⟩ := eq_txPush_of_mnemonic (hrow.1 (beq_iff_eq.2 h))
  rw [← txPush_type_field hd]
  exact hd

/-- Settles O36: the two outcomes of TX_PUSH are the branches of its capacity check, and `lowW` keeps the low W bits. -/
theorem stagingEffect : Obligations.StagingEffect :=
  ⟨rfl, rfl, fun _ => decode_txPush_row, rfl, fun _ _ => ⟨fun hfull => if_pos hfull, fun hroom => if_neg hroom⟩,
    fun _ => rfl⟩

/-! TX_SEND (spec/42_transmit.md R163 to R165, R173). -/

/-- Settles O37: the three guards of TX_SEND, in their order. -/
theorem sendThatAppendsNothing : Obligations.SendThatAppendsNothing := by
  refine fun s => ⟨fun hclk => if_pos hclk, fun hclk hempty => ?_, fun hclk hne hfull => ?_⟩
  · exact (if_neg (by simp [hclk])).trans (if_pos (by simp [hempty]))
  · exact (if_neg (by simp [hclk])).trans ((if_neg (by simpa using hne)).trans (if_pos hfull))

/-- With the clock set and room for a stage that is not empty, TX_SEND is accepted. -/
theorem txSend_accepted {s : State} (hclk : s.clock.clkSet = true) (hne : s.tx.stage ≠ [])
    (hroom : s.tx.queue.length + s.tx.stage.length ≤ s.params.qCap) :
    exec .txSend s = .next ((s.setTx (sendStage s.params s.tx)).setResult .ok) :=
  (if_neg (by simp [hclk])).trans ((if_neg (by simpa using hne)).trans (if_neg (by omega)))

theorem sendStage_of_idle {p : Params} {tx : Tx} (h : tx.queue = []) : sendStage p tx = txStart p (appendStage tx) :=
  if_pos (by simp [h])

/-- On a busy queue TX_SEND appends the stage, and writes the preselect in the last half only. -/
theorem sendStage_of_busy {p : Params} {tx : Tx} (h : tx.queue ≠ []) :
    sendStage p tx =
      { appendStage tx with
        presel :=
          if tx.cursor.toNat + 1 = 2 * tx.queue.length then
            halfLevel (tx.queue ++ tx.stage) (2 * tx.queue.length)
          else tx.presel } := by
  refine (if_neg (by simpa using h)).trans ?_
  split <;> rfl

/-- An accepted TX_SEND leaves TX_IDLE. -/
theorem sendStage_idle (p : Params) (tx : Tx) : (sendStage p tx).idle = tx.idle := by
  have hframe : sendStage p tx = _ := sendStage_frame p tx
  rw [hframe]

/-- Falling is "high then low" (spec/00_scope.md R11). -/
theorem firstLevel_eq (type : EdgeType) : firstLevel type = decide (type = .falling) := by cases type <;> rfl

theorem not_firstLevel_eq (type : EdgeType) : (!firstLevel type) = decide (type = .rising) := by cases type <;> rfl

/-- An even half is the first half of its pulse. -/
theorem halfLevel_even {q : List Pulse} {h : Nat} {x : Pulse} (heven : h % 2 = 0) (hx : q[h / 2]? = some x) :
    halfLevel q h = decide (x.type = .falling) := by
  simp [halfLevel, queueEntry, heven, hx, firstLevel_eq]

/-- An odd half is the second half of its pulse. -/
theorem halfLevel_odd {q : List Pulse} {h : Nat} {x : Pulse} (hodd : h % 2 = 1) (hx : q[h / 2]? = some x) :
    halfLevel q h = decide (x.type = .rising) := by
  simp [halfLevel, queueEntry, hodd, hx, not_firstLevel_eq]

theorem halfWidth_of_entry {q : List Pulse} {h : Nat} {x : Pulse} (hx : q[h / 2]? = some x) :
    halfWidth q h = if h % 2 = 0 then x.first else x.second := by
  simp [halfWidth, queueEntry, hx]

/-- Settles O38: `txStart` reads the halves of the first entry of the queue that the append has left. -/
theorem sendStartsTrain : Obligations.SendStartsTrain := by
  intro s e rest hclk hidle hstage hroom
  have hhead : (s.tx.queue ++ s.tx.stage)[0]? = some e := by simp [hidle, hstage]
  rw [txSend_accepted hclk (by simp [hstage]) (by simpa [hidle] using hroom), sendStage_of_idle hidle, txStart,
    appendStage, halfLevel_even (h := 0) rfl hhead, halfLevel_odd (h := 1) rfl hhead, halfWidth_of_entry (h := 0) hhead,
    hidle, hstage]
  rfl

/-- Settles O39: the fix-up reads the first half of the appended train, which follows the halves of the old one. -/
theorem sendAppendsToTrain : Obligations.SendAppendsToTrain := by
  intro s e rest hclk hbusy hstage hroom
  have hnew : halfLevel (s.tx.queue ++ s.tx.stage) (2 * s.tx.queue.length) = decide (e.type = .falling) := by
    refine (halfLevel_append_right s.tx.queue s.tx.stage (h := 0) (by simp [hstage])).trans ?_
    exact halfLevel_even rfl (by simp [hstage])
  rw [txSend_accepted hclk (by simp [hstage]) hroom, sendStage_of_busy hbusy, hnew, appendStage, hstage]
  rfl

/-! The compare match (spec/42_transmit.md R170, R171). -/

/-- A TICK of a busy transmitter that brings TX_CNT to TX_CMP runs the compare match. -/
theorem tickTx_of_match {p : Params} {tx : Tx} (hbusy : 0 < tx.queue.length)
    (h : wrap p (tx.count.toNat + 1) = tx.cmp) : tickTx p tx = compareMatch p { tx with count := tx.cmp } := by
  unfold tickTx
  rw [h]
  exact if_pos ⟨(busy_iff _).2 hbusy, rfl⟩

/-- The preselect after a match that begins half `h`: the level of the half after it, or the idle level. -/
theorem next_presel {q : List Pulse} {h : Nat} {x : Pulse} (hx : q[h / 2]? = some x) (idle : Level) :
    (if h + 1 < 2 * q.length then halfLevel q (h + 1) else idle) =
      if h % 2 = 0 then decide (x.type = .rising)
      else
        match q[h / 2 + 1]? with
        | some y => decide (y.type = .falling)
        | none => idle := by
  obtain ⟨hlt, -⟩ := List.getElem?_eq_some_iff.1 hx
  obtain heven | hodd := Nat.mod_two_eq_zero_or_one h
  · have hdiv : (h + 1) / 2 = h / 2 := by omega
    rw [if_pos (by omega), if_pos heven, halfLevel_odd (by omega) (hdiv ▸ hx)]
  · have hdiv : (h + 1) / 2 = h / 2 + 1 := by omega
    rw [if_neg (show ¬h % 2 = 0 by omega)]
    cases hy : q[h / 2 + 1]? with
    | some y =>
      obtain ⟨hlt', -⟩ := List.getElem?_eq_some_iff.1 hy
      rw [if_pos (by omega), halfLevel_even (by omega) (hdiv ▸ hy)]
    | none =>
      have hend := List.getElem?_eq_none_iff.1 hy
      exact if_neg (by omega)

/-- Settles O40: the match is the transmit part of the TICK; the two outcomes are the branches of `compareMatch`. -/
theorem compareMatchAdvancesTrain : Obligations.CompareMatchAdvancesTrain := by
  intro s hp hclk hbusy hcmp h
  have hmatch : wrap s.params (s.tx.count.toNat + 1) = s.tx.cmp :=
    BitVec.eq_of_toNat_eq ((wrap_toNat hp _).trans hcmp)
  have htick : exec .tick s = _ := execTick_eq hclk
  rw [tickTx_of_match hbusy hmatch] at htick
  refine ⟨fun hend => ?_, fun x hx hlt => ?_⟩
  · rw [htick, compareMatch, if_pos (by exact hend)]
    rfl
  · rw [htick, compareMatch, if_neg (by exact hlt.ne), next_presel hx, halfWidth_of_entry hx]
    rfl

/-! Trains played by TICKs (spec/42_transmit.md R172, R173). -/

/-- A run of ticks only ticks the transmit fields. -/
theorem run_withTicks (n : Nat) {s : State} (hclk : s.clock.clkSet = true) :
    ∃ u, core.run n (s.withTicks n) = .next u ∧ u.tx = (tickTx s.params)^[n] s.tx := by
  induction n generalizing s with
  | zero => exact ⟨_, rfl, rfl⟩
  | succ n ih =>
    let s' := (tickCapture s).setTx (tickTx s.params s.tx)
    obtain ⟨u, hrun, htx⟩ := ih (s := s') (by simpa [s'] using hclk)
    have hstep : core.step (s.withTicks (n + 1)) = .next (s'.withTicks n) := by
      change step (s.withTicks (n + 1)) = _
      rw [step_tick (by exact hclk) rfl, State.withTicks, tickCapture_setPending]
      rfl
    refine ⟨u, (run_succ n hstep).trans hrun, ?_⟩
    simpa [s'] using htx

/-- A TICK drives the first of the remaining levels, if any, and leaves the others. -/
theorem remaining_tickTx {p : Params} {tx : Tx} (hp : p.Valid) (ht : tx.Inv p) :
    remaining p (tickTx p tx) = (remaining p tx).tail := by
  cases hb : tx.busy with
  | true => exact remaining_tick hp ht hb
  | false =>
    rw [tickTx_of_no_match (.inl (by simp [(not_busy_iff tx).1 hb]))]
    simp [remaining, (not_busy_iff tx).1 hb]

section
variable {p : Params} {tx : Tx} (hp : p.Valid) (ht : tx.Inv p)
include hp ht

theorem iterate_tickTx_inv (n : Nat) : ((tickTx p)^[n] tx).Inv p := by
  induction n with
  | zero => exact ht
  | succ n ih =>
    rw [Function.iterate_succ_apply']
    exact tickTx_inv hp ih

/-- `n` ticks use up `n` of the remaining levels. -/
theorem remaining_iterate_tickTx (n : Nat) : remaining p ((tickTx p)^[n] tx) = (remaining p tx).drop n := by
  induction n with
  | zero => rfl
  | succ n ih =>
    rw [Function.iterate_succ_apply', remaining_tickTx hp (iterate_tickTx_inv hp ht n), ih, List.tail_drop]

omit hp ht in
/-- Ticks keep the idle level, and the queue unless they release it. -/
theorem iterate_tickTx_frame (n : Nat) :
    ((tickTx p)^[n] tx).idle = tx.idle ∧ (((tickTx p)^[n] tx).queue = tx.queue ∨ ((tickTx p)^[n] tx).queue = []) := by
  induction n with
  | zero => exact ⟨rfl, .inl rfl⟩
  | succ n ih =>
    rw [Function.iterate_succ_apply']
    obtain ⟨hidle, hqueue⟩ := tickTx_frame p ((tickTx p)^[n] tx)
    obtain ⟨ihidle, ihqueue⟩ := ih
    refine ⟨hidle.trans ihidle, ?_⟩
    obtain e | e := hqueue
    · rw [e]
      exact ihqueue
    · exact .inr e

/-- After `n` ticks the pin is at the `n`-th of the remaining levels, and the train is still queued. -/
theorem iterate_tickTx_plays {n : Nat} {l : Level} (hl : (remaining p tx)[n]? = some l) :
    ((tickTx p)^[n] tx).pinOut = l ∧ ((tickTx p)^[n] tx).queue = tx.queue := by
  have hhead : (remaining p ((tickTx p)^[n] tx))[0]? = some l := by
    rw [remaining_iterate_tickTx hp ht, List.getElem?_drop]
    exact hl
  have hbusy : ((tickTx p)^[n] tx).busy = true := by
    by_contra hb
    simp [remaining, hb] at hhead
  have hqueue : ((tickTx p)^[n] tx).queue ≠ [] := List.length_pos_iff.1 ((busy_iff _).1 hbusy)
  rw [remaining_head (iterate_tickTx_inv hp ht n) hbusy] at hhead
  exact ⟨Option.some.inj hhead, (iterate_tickTx_frame n).2.resolve_right hqueue⟩

/-- After as many ticks as levels remain, the queue is released and the pin is idle. -/
theorem iterate_tickTx_ends :
    ((tickTx p)^[(remaining p tx).length] tx).queue = [] ∧
      ((tickTx p)^[(remaining p tx).length] tx).pinOut = tx.idle := by
  have hinv := iterate_tickTx_inv hp ht (remaining p tx).length
  have hquiet := not_busy_of_remaining_nil hinv (by rw [remaining_iterate_tickTx hp ht, List.drop_length])
  exact ⟨(not_busy_iff _).1 hquiet, (hinv.quietIdle hquiet).2.trans (iterate_tickTx_frame _).1⟩

end

/-- The pin goes through the given levels, one per tick, with the queue kept, and then the queue is empty and the pin is
idle. -/
def Plays (s : State) (levels : List Level) : Prop :=
  (∀ n l, levels[n]? = some l →
    ∃ u, core.run n (s.withTicks n) = .next u ∧ u.tx.pinOut = l ∧ u.tx.queue = s.tx.queue) ∧
  ∃ u, core.run levels.length (s.withTicks levels.length) = .next u ∧ u.tx.queue = [] ∧ u.tx.pinOut = s.tx.idle

/-- With the clock set, ticks play the remaining levels. -/
theorem plays_remaining {s : State} (h : s.Inv) (hclk : s.clock.clkSet = true) :
    Plays s (remaining s.params s.tx) := by
  constructor
  · intro n l hl
    obtain ⟨u, hrun, htx⟩ := run_withTicks n hclk
    exact ⟨u, hrun, htx ▸ iterate_tickTx_plays h.paramsValid h.tx hl⟩
  · obtain ⟨u, hrun, htx⟩ := run_withTicks (remaining s.params s.tx).length hclk
    exact ⟨u, hrun, htx ▸ iterate_tickTx_ends h.paramsValid h.tx⟩

/-- A TX_SEND of a stage that is not empty reports Ok only when it is accepted. -/
theorem txSend_ok {s t : State} (hne : s.tx.stage ≠ []) (h : exec .txSend s = .next t) (hok : t.result = .ok) :
    s.clock.clkSet = true ∧ t = (s.setTx (sendStage s.params s.tx)).setResult .ok := by
  obtain ⟨-, rfl⟩ | ⟨-, hempty, -⟩ | ⟨-, -, -, rfl⟩ | ⟨hclk, -, -, rfl⟩ := txSend_cases h
  · cases hok
  · exact absurd hempty hne
  · cases hok
  · exact ⟨hclk, rfl⟩

/-- An accepted TX_SEND leaves the remaining levels of the extended train to be played. -/
theorem plays_after_send {s t : State} (hinv : s.Inv) (hne : s.tx.stage ≠ []) (h : exec .txSend s = .next t)
    (hok : t.result = .ok) : Plays t (remaining s.params (sendStage s.params s.tx)) := by
  have htinv := exec_inv hinv h
  obtain ⟨hclk, rfl⟩ := txSend_ok hne h hok
  exact plays_remaining htinv hclk

/-- Settles O42: right after the start, what remains to be driven is the waveform of the staged train. -/
theorem trainPlaysItsWaveform : Obligations.TrainPlaysItsWaveform := by
  intro s t hinv hidle hne h hok
  have hplays := plays_after_send hinv hne h hok
  rw [remaining_start hinv.paramsValid hinv.tx hidle hne] at hplays
  obtain ⟨-, rfl⟩ := txSend_ok hne h hok
  have hqueue : (sendStage s.params s.tx).queue = s.tx.stage := by simp [(sendStage_queue s.params s.tx).1, hidle]
  simpa only [Plays, State.setResult_tx, State.setTx_tx, hqueue, sendStage_idle] using hplays

/-- Settles O43: the append adds the waveform of the stage to what remains to be driven. -/
theorem appendedTrainFollowsWithoutGap : Obligations.AppendedTrainFollowsWithoutGap := by
  intro s t hinv hbusy hne h hok levels
  have hb : s.tx.busy = true := (busy_iff _).2 (List.length_pos_iff.2 hbusy)
  have hplays := plays_after_send hinv hne h hok
  rw [remaining_append hinv.tx hb] at hplays
  obtain ⟨hlevel, hend⟩ := hplays
  obtain ⟨-, rfl⟩ := txSend_ok hne h hok
  refine ⟨fun n l hl => ?_, sendStage_idle s.params s.tx ▸ hend⟩
  obtain ⟨u, hrun, hpin, -⟩ := hlevel n l hl
  exact ⟨u, hrun, hpin⟩

end Sys2Proof.Machine
end

section
/-! SUPPORT and proofs: the tolerance comparator (spec/43_tolerance.md): what one half and a whole pulse pass on. -/

namespace Sys2Proof.Machine

/-- R200: the window of one half, over the integers. -/
theorem halfWithin_iff_window (a b : Half) (m : BitVec 16) :
    halfWithin a b m = true ↔ (b.toNat : Int) - m.toNat ≤ a.toNat ∧ (a.toNat : Int) ≤ b.toNat + m.toNat := by
  simp [halfWithin]

/-- R201: the window of one half is a bound on the distance. -/
theorem halfWithin_iff_distance (a b : Half) (m : BitVec 16) :
    halfWithin a b m = true ↔ |(a.toNat : Int) - b.toNat| ≤ m.toNat := by
  rw [halfWithin_iff_window, abs_sub_le_iff]
  omega

theorem halfWithin_comm (a b : Half) (m : BitVec 16) : halfWithin a b m = halfWithin b a m := by
  rw [Bool.eq_iff_iff, halfWithin_iff_distance, halfWithin_iff_distance, abs_sub_comm]

theorem halfWithin_self (a : Half) (m : BitVec 16) : halfWithin a a m = true := by
  simp [halfWithin_iff_distance]

/-- The comparator passes when both halves pass and the types are equal. -/
theorem pulsesEqual_iff (a b : Pulse) (m : BitVec 16) :
    pulsesEqual a b m = true ↔
      halfWithin a.first b.first m = true ∧ halfWithin a.second b.second m = true ∧ a.type = b.type := by
  simp [pulsesEqual, and_assoc]

theorem pulsesEqual_comm (a b : Pulse) (m : BitVec 16) : pulsesEqual a b m = pulsesEqual b a m := by
  rw [Bool.eq_iff_iff, pulsesEqual_iff, pulsesEqual_iff, halfWithin_comm a.first, halfWithin_comm a.second,
    eq_comm (a := a.type)]

/-- A pulse passes against itself under every margin. -/
theorem pulsesEqual_self (a : Pulse) (m : BitVec 16) : pulsesEqual a a m = true :=
  (pulsesEqual_iff a a m).2 ⟨halfWithin_self a.first m, halfWithin_self a.second m, rfl⟩

/-- Settles O45: each half passes exactly when it lies in its window. -/
theorem comparatorIsTheWindow : Obligations.ComparatorIsTheWindow := by
  intro a b m
  rw [pulsesEqual_iff, halfWithin_iff_window, halfWithin_iff_window]

/-- Settles O46: each half passes exactly when its distance is within the margin, and distance is symmetric. -/
theorem comparatorIsSymmetricDistance : Obligations.ComparatorIsSymmetricDistance := by
  refine ⟨fun a b m => ⟨?_, pulsesEqual_comm a b m⟩, fun a => pulsesEqual_self a 0⟩
  rw [pulsesEqual_iff, halfWithin_iff_distance, halfWithin_iff_distance]

end Sys2Proof.Machine
end

section
/-! SUPPORT and proofs: the NEC FSA (spec/44_nec_fsa.md): what one pulse does in each state, how a frame and how lost traffic
run, and what is delivered. -/

namespace Sys2Proof.Machine

section
variable (h : Shapes) (p : Pulse) (f : Fsa) (m : Mailbox)

/-! One pulse. -/

/-- R210: Idle and Malformed are one arm. -/
theorem fsaStep_idle_or_malformed (hf : f.state = .idle ∨ f.state = .malformed) :
    fsaStep h p f m = ({ f with state := .leadingPulse }, m) := by
  obtain hf | hf := hf <;> simp [fsaStep, hf]

theorem fsaStep_leadingPulse (hf : f.state = .leadingPulse) : fsaStep h p f m = leadingStep h p f m := by
  simp [fsaStep, hf]

theorem fsaStep_messageBody (hf : f.state = .messageBody) : fsaStep h p f m = bodyStep h p f m := by
  simp [fsaStep, hf]

/-- R216 (a): a malformed stored code is not repeated. -/
theorem repeatPath_suppressed (hn : f.stored.nov = .malformed) : repeatPath f m = ({ f with state := .idle }, m) := by
  rw [repeatPath, if_pos ((suppress_iff f).2 hn)]

/-- R216: any other stored code is tagged Repeat and delivered. -/
theorem repeatPath_delivers (hn : f.stored.nov ≠ .malformed) :
    repeatPath f m =
      ({ f with state := .idle, stored := { f.stored with nov := .repeated } },
        deliver { f.stored with nov := .repeated } m) := by
  rw [repeatPath, if_neg (mt (suppress_iff f).1 hn)]

/-- A shape that is ONE reads as 1, whether or not it is also ZERO (R217). -/
theorem bitOf_one (h1 : pulsesEqual p h.one h.margin = true) : bitOf h p = some true := by
  rw [bitOf, if_pos h1]

theorem bitOf_zero (h1 : pulsesEqual p h.one h.margin = false) (h0 : pulsesEqual p h.zero h.margin = true) :
    bitOf h p = some false := by
  simp [bitOf, h1, h0]

/-- R213: a bad bit. -/
theorem bodyStep_badBit (h1 : pulsesEqual p h.one h.margin = false) (h0 : pulsesEqual p h.zero h.margin = false) :
    bodyStep h p f m = (enterMalformed f, m) := by
  simp [bodyStep, h1, h0]

/-- R214: a bit before the 32nd is counted. -/
theorem shiftIn_counts (b : Bool) (hn : f.bits.toNat < 31) :
    shiftIn b f m = ({ f with shift := shifted f b, bits := f.bits + 1 }, m) := by
  have hbits : BitVec.ofNat 6 (f.bits.toNat + 1) = f.bits + 1 := by simp [BitVec.ofNat_add]
  rw [shiftIn, if_pos (by omega), hbits]

/-- R214: the 32nd bit completes the code. -/
theorem shiftIn_completes (b : Bool) (hn : 31 ≤ f.bits.toNat) : shiftIn b f m = complete (shifted f b) f m := by
  rw [shiftIn, if_neg (by omega)]

/-- The register after a new bit, as the word of a number. -/
theorem shifted_eq_ofNat (b : Bool) : shifted f b = BitVec.ofNat 32 (2 * f.shift.toNat + b.toNat) :=
  BitVec.eq_of_toNat_eq (by rw [shifted_toNat, BitVec.toNat_ofNat])

/-- R215: the complement matches. -/
theorem complete_new (s : Word) (hk : s.extractLsb' 0 8 = ~~~s.extractLsb' 8 8) :
    complete s f m =
      ({ state := .idle, bits := 0, shift := 0,
         stored := { addr := s.extractLsb' 16 16, cmd := s.extractLsb' 8 8, nov := .new } },
       deliver { addr := s.extractLsb' 16 16, cmd := s.extractLsb' 8 8, nov := .new } m) := by
  rw [complete, if_pos hk]

/-- R215: the complement does not match. -/
theorem complete_malformed (s : Word) (hk : ¬ s.extractLsb' 0 8 = ~~~s.extractLsb' 8 8) :
    complete s f m =
      ({ state := .malformed, bits := 0, shift := 0, stored := { f.stored with nov := .malformed } }, m) := by
  rw [complete, if_neg hk]
  rfl

/-- A field of a word, as the word of a number. -/
theorem extractLsb'_eq_ofNat (s : Word) (k n : Nat) : s.extractLsb' k n = BitVec.ofNat n (s.toNat / 2 ^ k) :=
  BitVec.eq_of_toNat_eq (by rw [BitVec.extractLsb'_toNat, BitVec.toNat_ofNat, Nat.shiftRight_eq_div_pow])

/-- The check of R215, as numbers. -/
theorem lowByte_eq_not_iff (s : Word) (c : Byte) : s.extractLsb' 0 8 = ~~~c ↔ s.toNat % 2 ^ 8 = 255 - c.toNat := by
  rw [← BitVec.toNat_inj, BitVec.toNat_not, BitVec.extractLsb'_toNat, Nat.shiftRight_zero]

end

/-- Settles O47, by the arms of the dispatch. -/
theorem idleFsaConsumesAnyPulse : Obligations.IdleFsaConsumesAnyPulse := fun h p f m =>
  ⟨fsaStep_idle_or_malformed h p f m, fsaStep_leadingPulse h p f m, fsaStep_messageBody h p f m⟩

/-- Settles O48, by the order of the tests: LEAD, then REP, then suppression. -/
theorem leadingPulseStep : Obligations.LeadingPulseStep := by
  intro h p f m hf
  rw [fsaStep_leadingPulse h p f m hf, leadingStep]
  refine ⟨fun hl => if_pos hl, fun hl hr hn => ?_, fun hl hr hn => ?_, fun hl hr => ?_⟩
  · simp only [hl, hr, Bool.false_eq_true, if_false, if_true]
    exact repeatPath_delivers f m hn
  · simp only [hl, hr, Bool.false_eq_true, if_false, if_true]
    exact repeatPath_suppressed f m hn
  · simp only [hl, hr, Bool.false_eq_true, if_false]
    rfl

/-- Settles O49: ONE and ZERO read as a bit, which is shifted in. -/
theorem messageBodyStep : Obligations.MessageBodyStep := by
  intro h p f m hf
  refine ⟨fun h1 hn => ?_, fun h1 h0 hn => ?_, fun h1 h0 => ?_⟩
  · rw [fsaStep_bit h p f m hf (bitOf_one h p h1), shiftIn_counts f m true hn, shifted_eq_ofNat]
    rfl
  · rw [fsaStep_bit h p f m hf (bitOf_zero h p h1 h0), shiftIn_counts f m false hn, shifted_eq_ofNat]
    rfl
  · rw [fsaStep_messageBody h p f m hf, bodyStep_badBit h p f m h1 h0]
    rfl

/-- Settles O50: the completed word is the register with the new bit, whose fields and check are read as numbers. -/
theorem thirtySecondBitCompletes : Obligations.ThirtySecondBitCompletes := by
  intro h p f m b hf hn hb
  rw [fsaStep_bit h p f m hf hb, shiftIn_completes f m b hn, ← shifted_toNat]
  generalize shifted f b = x
  dsimp only
  rw [← extractLsb'_eq_ofNat, ← extractLsb'_eq_ofNat, ne_eq, ← lowByte_eq_not_iff]
  exact ⟨complete_new f m x, complete_malformed f m x⟩

/-! A whole frame. -/

/-- The FSA within a frame that carries `x`, after its first `n` bits: the register holds the top `n` bits of `x`. -/
def Fsa.receiving (f : Fsa) (x : Word) (n : Nat) : Fsa :=
  { f with state := .messageBody, shift := x >>> (32 - n), bits := BitVec.ofNat 6 n }

section
variable {h : Shapes} {ps : List Pulse} {f : Fsa} {m : Mailbox} {x : Word}

/-- The leading pulse begins a frame, whatever the frame will carry. -/
theorem fsaStep_lead {lead : Pulse} (x : Word) (m : Mailbox) (hf : f.state = .leadingPulse)
    (hl : pulsesEqual lead h.lead h.margin = true) : fsaStep h lead f m = (f.receiving x 0, m) := by
  have hx : x >>> 32 = 0 := BitVec.ushiftRight_eq_zero (Nat.le_refl 32)
  rw [fsaStep_leadingPulse h lead f m hf, leadingStep, if_pos hl, Fsa.receiving, hx]
  rfl

/-- The next bit of the code, bit 31 first, extends the top bits that the register holds. -/
theorem shifted_receiving (f : Fsa) (x : Word) {n : Nat} (hn : n < 32) :
    shifted (f.receiving x n) (x.getLsbD (31 - n)) = x >>> (31 - n) := by
  apply BitVec.eq_of_toNat_eq
  have hx := x.isLt
  have hhalf : x.toNat / 2 ^ (32 - n) = x.toNat / 2 ^ (31 - n) / 2 := by
    rw [show 32 - n = 31 - n + 1 by omega, Nat.pow_succ, Nat.div_div_eq_div_mul]
  have hle := Nat.div_le_self x.toNat (2 ^ (31 - n))
  rw [shifted_toNat, Fsa.receiving, bit_toNat, BitVec.toNat_ushiftRight, BitVec.toNat_ushiftRight,
    Nat.shiftRight_eq_div_pow, Nat.shiftRight_eq_div_pow, hhalf]
  omega

/-- A bit of the code before the last is received. -/
theorem fsaStep_receiving {p : Pulse} {n : Nat} (f : Fsa) (m : Mailbox) (hn : n < 31)
    (hb : bitOf h p = some (x.getLsbD (31 - n))) :
    fsaStep h p (f.receiving x n) m = (f.receiving x (n + 1), m) := by
  have hbits : (f.receiving x n).bits.toNat < 31 := by simp [Fsa.receiving]; omega
  rw [fsaStep_bit h p _ m rfl hb, shiftIn_counts _ m _ hbits, shifted_receiving f x (by omega)]
  simp [Fsa.receiving, BitVec.ofNat_add, show 32 - (n + 1) = 31 - n by omega]

/-- The last bit of the code completes it. -/
theorem fsaStep_receiving_last {p : Pulse} (f : Fsa) (m : Mailbox) (hb : bitOf h p = some (x.getLsbD 0)) :
    fsaStep h p (f.receiving x 31) m = complete x (f.receiving x 31) m := by
  have hword : shifted (f.receiving x 31) (x.getLsbD 0) = x :=
    (shifted_receiving f x (show 31 < 32 by decide)).trans (BitVec.ushiftRight_zero x)
  rw [fsaStep_bit h p _ m rfl hb, shiftIn_completes _ m _ (by simp [Fsa.receiving]), hword]

/-- Pulses that read as the bits of a code are 32 pulses, the first of them bit 31. -/
theorem bitOf_getElem_of_map_eq (hps : ps.map (bitOf h) = (codeBits x).map some) :
    ps.length = 32 ∧ ∀ n (hn : n < ps.length), bitOf h ps[n] = some (x.getLsbD (31 - n)) := by
  have hlen : ps.length = 32 := by simpa [codeBits] using congrArg List.length hps
  refine ⟨hlen, fun n hn => ?_⟩
  have hget : (ps.map (bitOf h))[n]? = ((codeBits x).map some)[n]? := by rw [hps]
  simpa [codeBits, hn, show n < 32 by omega] using hget

/-- The first `n` bits of a frame that carries `x`, but not the last one. -/
theorem fsaRun_take_receiving (hlen : ps.length = 32)
    (hb : ∀ n (hn : n < ps.length), bitOf h ps[n] = some (x.getLsbD (31 - n))) (f : Fsa) (m : Mailbox) {n : Nat}
    (hn : n ≤ 31) : fsaRun h (ps.take n) (f.receiving x 0) m = (f.receiving x n, m) := by
  induction n with
  | zero => rfl
  | succ n ih =>
    have hlt : n < ps.length := by omega
    rw [List.take_succ_eq_append_getElem hlt, fsaRun_append, ih (by omega)]
    exact fsaStep_receiving f m (by omega) (hb n hlt)

/-- The 32 bit pulses of a frame that carries `x` complete `x`. -/
theorem fsaRun_codeBits (f : Fsa) (m : Mailbox) (hps : ps.map (bitOf h) = (codeBits x).map some) :
    fsaRun h ps (f.receiving x 0) m = complete x (f.receiving x 31) m := by
  obtain ⟨hlen, hb⟩ := bitOf_getElem_of_map_eq hps
  have hlt : 31 < ps.length := by omega
  have hsplit : ps = ps.take 31 ++ [ps[31]] := by
    rw [← List.take_succ_eq_append_getElem hlt, List.take_of_length_le (by omega)]
  rw [hsplit, fsaRun_append, fsaRun_take_receiving hlen hb f m (Nat.le_refl 31)]
  exact fsaStep_receiving_last f m (hb 31 hlt)

end

/-- Settles O51: LEAD clears the register, the bits fill it with `x` from the top, and the last one completes `x`. -/
theorem frameFromLeadingPulseDecodes : Obligations.FrameFromLeadingPulseDecodes := by
  intro h lead ps f m x hf hl hps
  rw [fsaRun, fsaStep_lead x m hf hl, fsaRun_codeBits f m hps]
  split
  · next hk => exact complete_new _ m x hk
  · next hk => exact complete_malformed _ m x hk

/-! Lost traffic (R222). -/

/-- From LeadingPulse, every second of a number of noise pulses enters Malformed and the others are consumed. -/
theorem fsaRun_odd_noise (h : Shapes) (m : Mailbox) : ∀ (ps : List Pulse) (f : Fsa), f.state = .leadingPulse →
    ps.length % 2 = 1 → (∀ p ∈ ps, isNoise h p = true) → fsaRun h ps f m = (enterMalformed f, m)
  | [], _, _, hodd, _ => absurd hodd (by decide)
  | [p], f, hf, _, hnoise => fsaStep_noise h p f m hf (hnoise p (by simp))
  | p :: q :: ps, f, hf, hodd, hnoise => by
    rw [fsaRun, fsaStep_noise h p f m hf (hnoise p (by simp)), fsaRun, fsaStep_idle_or_malformed h q _ m (.inr rfl)]
    exact fsaRun_odd_noise h m ps _ rfl (by simp at hodd; omega) fun r hr => hnoise r (by simp [hr])

/-- One transmission met in Idle or Malformed is lost: its first pulse is consumed, the others are noise. -/
theorem fsaRun_lost_transmission {h : Shapes} {f : Fsa} (m : Mailbox) (first : Pulse) {rest : List Pulse}
    (hf : f.state = .idle ∨ f.state = .malformed) (hodd : rest.length % 2 = 1)
    (hnoise : ∀ p ∈ rest, isNoise h p = true) : fsaRun h (first :: rest) f m = (enterMalformed f, m) := by
  rw [fsaRun, fsaStep_idle_or_malformed h first f m hf]
  exact fsaRun_odd_noise h m rest _ rfl hodd hnoise

/-- Settles O52: each transmission is lost and leaves Malformed, in which the next one is met. -/
theorem wellFormedTrafficFromIdleIsLost : Obligations.WellFormedTrafficFromIdleIsLost := by
  intro h ts
  induction ts with
  | nil => intro f m _ _ hne; exact absurd rfl hne
  | cons t ts ih =>
    intro f m hf hts _
    obtain ⟨⟨hodd, hnoise⟩, hrest⟩ := List.forall_mem_cons.1 hts
    rw [List.flatMap_cons, fsaRun_append, fsaRun_lost_transmission m t.1 hf hodd hnoise]
    by_cases hne : ts = []
    · subst hne; rfl
    · exact ih (enterMalformed f) m (.inr rfl) hrest hne

/-! What is delivered (R216, R219). -/

/-- With a malformed stored code, a pulse stores a New, or it keeps the code malformed and delivers nothing. -/
theorem fsaStep_suppressed (h : Shapes) (p : Pulse) {f : Fsa} (m : Mailbox) (hn : f.stored.nov = .malformed) :
    (fsaStep h p f m).1.stored.nov = .new ∨
      ((fsaStep h p f m).1.stored.nov = .malformed ∧ (fsaStep h p f m).2 = m) := by
  obtain ⟨e, -⟩ | ⟨e, -⟩ | ⟨e, -⟩ | ⟨e, -⟩ | ⟨b, -, -, e⟩ | ⟨b, -, -, e⟩ := fsaStep_cases h p f m <;> rw [e]
  · exact .inr ⟨hn, rfl⟩
  · exact .inr ⟨hn, rfl⟩
  · rw [repeatPath_suppressed f m hn]; exact .inr ⟨hn, rfl⟩
  · exact .inr ⟨rfl, rfl⟩
  · exact .inr ⟨hn, rfl⟩
  · by_cases hk : (shifted f b).extractLsb' 0 8 = ~~~(shifted f b).extractLsb' 8 8
    · rw [complete_new f m _ hk]; exact .inl rfl
    · rw [complete_malformed f m _ hk]; exact .inr ⟨rfl, rfl⟩

/-- Settles O53, by induction on the pulses: the first one stores no New, so it keeps the suppression. -/
theorem suppressionLastsUntilNew : Obligations.SuppressionLastsUntilNew := by
  intro h ps
  induction ps with
  | nil => exact fun f m hn _ => ⟨hn, rfl⟩
  | cons p ps ih =>
    intro f m hn hnew
    have hfirst : (fsaStep h p f m).1.stored.nov ≠ .new := hnew [p] (by simp)
    obtain ⟨hkept, hmbx⟩ := (fsaStep_suppressed h p m hn).resolve_left hfirst
    obtain ⟨hstored, hlast⟩ := ih _ (fsaStep h p f m).2 hkept fun qs hqs =>
      hnew (p :: qs) (List.cons_prefix_cons.2 ⟨rfl, hqs⟩)
    exact ⟨hstored, hlast.trans hmbx⟩

/-- Settles O55: without a pulse the mailbox can only lose READY, and a pulse delivers a New or a Repeat or nothing. -/
theorem malformedIsNeverDelivered : Obligations.MalformedIsNeverDelivered := by
  intro s t h hchg
  obtain ⟨-, -, e | e⟩ | ⟨-, -, -, e⟩ := fsaChangesOnlyOnEmission s t h
  · simp [e] at hchg
  · simp [e] at hchg
  · have hdelivered := fsaStep_mailbox s.shapes t.last.pulse s.fsa s.mbx
    rw [← e] at hdelivered
    obtain (hm : t.mbx = s.mbx) | ⟨hm : t.mbx = deliver t.fsa.stored s.mbx, hnov⟩ := hdelivered
    · simp [hm] at hchg
    · rw [hm]
      exact ⟨rfl, hnov, rfl⟩

end Sys2Proof.Machine
end

section
/-! SUPPORT. The NEC Reader: what each address mode accepts, what a poll does, and that an open reader keeps its
configuration (spec/45_reader.md). -/

namespace Sys2Proof.Machine

/-! Address acceptance (R242, R243). -/

/-- An address passes the reverse check exactly when it holds every bit of the mask. -/
theorem chkReverse_iff (r d : BitVec 16) :
    chkReverse r d = true ↔ ∀ j : Nat, d.getLsbD j = true → r.getLsbD j = true := by
  rw [chkReverse, beq_iff_eq]
  constructor
  · intro h j hj
    rw [← h, BitVec.getLsbD_and, Bool.and_eq_true] at hj
    exact hj.1
  · intro h
    refine BitVec.eq_of_getLsbD_eq fun j _ => ?_
    rw [BitVec.getLsbD_and, Bool.and_eq_right_iff_imp]
    exact h j

/-- The two subset checks together leave only the device address itself. -/
theorem chkBitmask_and_chkReverse_iff (r d : BitVec 16) : (chkBitmask r d && chkReverse r d) = true ↔ r = d := by
  rw [Bool.and_eq_true, chkBitmask, chkReverse, beq_iff_eq, beq_iff_eq]
  constructor
  · rintro ⟨hr, hd⟩
    exact hr.symm.trans hd
  · rintro rfl
    exact ⟨BitVec.and_self, BitVec.and_self⟩

/-- The exact check comes first and already decides: the later ones reject nothing more. -/
theorem accept_exactMatch_iff (r d : BitVec 16) : accept .exactMatch r d = true ↔ r = d := by
  rw [accept, Bool.and_assoc, Bool.and_eq_true, chkBitmask_and_chkReverse_iff, chkExact, beq_iff_eq, and_self_iff]

/-- Every code above 3 is read as Ignore (R241). -/
theorem addressMode_ofCode_of_gt {n : Nat} (h : 3 < n) : AddressMode.ofCode n = .ignore := by
  match n, h with
  | _ + 4, _ => rfl

/-- Settles O57: each mode is the conjunction of its checks, and the two subset checks give equality. -/
theorem addressAcceptance : Obligations.AddressAcceptance :=
  ⟨fun r d => ⟨accept_exactMatch_iff r d, chkBitmask_and_chkReverse_iff r d, chkReverse_iff r d, rfl⟩,
    rfl, rfl, rfl, rfl, fun _ => addressMode_ofCode_of_gt, rfl, rfl⟩

/-! One pass of the loop of `read` (R244). -/

/-- The guards of the loop of `read`, on the fields of the mailbox: a code is ready, its novelty is New or a respected
Repeat, and its address is accepted. -/
theorem consume_mailboxWord (c : ReaderConfig) (m : Mailbox) :
    consume c (mailboxWord m) =
      if m.ready = true ∧ (m.code.nov = .new ∨ (m.code.nov = .repeated ∧ c.respectRepeats = true)) ∧
          accept c.mode m.code.addr c.deviceAddress = true
      then some m.code.cmd else none := by
  obtain ⟨hready, hnov, hcmd, haddr⟩ := mailboxWord_fields m
  simp only [consume, hready, hnov, hcmd, haddr]
  cases m.ready with
  | false => rfl
  | true =>
    cases accept c.mode m.code.addr c.deviceAddress with
    | false => simp
    | true =>
      cases m.code.nov with
      | new => rfl
      | repeated => cases c.respectRepeats <;> rfl
      | malformed => rfl

/-- A poll of a waiting reader reads MBX_CODE, and the word it reads decides whether the reader returns. -/
theorem readerPoll_waiting {s : State} {c : ReaderConfig} (hw : s.reader = .waiting c) :
    readerPoll s =
      (readReg .mbxCode s).setReader ((consume c (peek s .mbxCode)).elim (.waiting c) .returned) := by
  have hkeeps : (readReg .mbxCode s).setReader (.waiting c) = readReg .mbxCode s := by rw [← hw]; rfl
  cases hc : consume c (peek s .mbxCode) with
  | none => simp [readerPoll, hw, hc, hkeeps]
  | some cmd => simp [readerPoll, hw, hc]

/-- Settles O58: the poll is the read of MBX_CODE, and the word read carries the fields of the mailbox. -/
theorem readerPollFollowsRead : Obligations.ReaderPollFollowsRead := by
  intro s c hw
  have hword : peek s .mbxCode = mailboxWord s.mbx := rfl
  rw [perform, readerPoll_waiting hw, hword, consume_mailboxWord]
  split <;> rfl

/-! The configuration of an open reader (R240). -/

/-- A read of a register leaves the reader as it was. -/
theorem readReg_reader (r : Reg) (s : State) : (readReg r s).reader = s.reader := by
  obtain e | e := readReg_eq r s <;> rw [e] <;> rfl

/-- So does a write of a register. -/
theorem writeReg_reader (r : Reg) (v : Word) (s : State) : (writeReg r v s).reader = s.reader := by
  obtain e | ⟨_, e⟩ | e | e := writeReg_eq r v s <;> rw [e] <;> rfl

/-- So does every instruction. -/
theorem exec_reader {i : Instr} {s t : State} (h : exec i s = .next t) : t.reader = s.reader := by
  obtain ⟨-, -, -, hreader, -⟩ := exec_keeps_surroundings h
  exact hreader

/-- A call of `read` while the reader waits is no step (notes/assumptions/10.md). -/
theorem readerOpen_waiting {s : State} {c : ReaderConfig} (hw : s.reader = .waiting c) (c' : ReaderConfig) :
    readerOpen c' s = s :=
  (readerOpen_eq c' s).resolve_right fun ⟨hnot, _⟩ => hnot c hw

/-- A stimulus leaves a waiting reader waiting with its configuration, or is a poll that accepts the word it reads. -/
theorem perform_waiting {a : Stimulus} {s t : State} {c : ReaderConfig} (hw : s.reader = .waiting c)
    (h : perform a s = .next t) :
    t.reader = .waiting c ∨
      (a = .readerPoll ∧ ∃ cmd, t.reader = .returned cmd ∧ consume c (peek s .mbxCode) = some cmd) := by
  cases a with
  | hostRead w addr =>
    left
    obtain rfl | ⟨r, -, rfl⟩ := memRead_cases h
    · exact hw
    · rwa [readReg_reader]
  | hostWrite w addr v =>
    left
    obtain rfl | ⟨-, he⟩ | ⟨r, rfl⟩ := memWrite_cases h
    · exact hw
    · rwa [exec_reader he]
    · rwa [writeReg_reader]
  | readerOpen c' =>
    left
    cases h
    rwa [readerOpen_waiting hw]
  | readerPoll =>
    cases h
    rw [readerPoll_waiting hw]
    cases hc : consume c (peek s .mbxCode) with
    | none => exact .inl rfl
    | some cmd => exact .inr ⟨rfl, cmd, rfl, rfl⟩
  | tick => exact .inl ((exec_reader (i := .tick) h).trans hw)
  | edge v => exact .inl ((exec_reader (i := .edge v) h).trans hw)

/-- Settles O59: a step performs its next stimulus, and only a poll ends the wait. -/
theorem readerKeepsItsConfiguration : Obligations.ReaderKeepsItsConfiguration := by
  intro s t c hw h
  obtain ⟨-, rfl⟩ | ⟨a, rest, hp, ha⟩ := step_cases h
  · exact .inl hw
  · have hw' : (s.setPending rest).reader = .waiting c := hw
    obtain hkept | ⟨rfl, hreturned⟩ := perform_waiting hw' ha
    · exact .inl hkept
    · exact .inr ⟨by rw [hp, List.head?_cons], hreturned⟩

end Sys2Proof.Machine
end

section
/-! SUPPORT and proofs: what a command reports, and an edge and an overflow at one instant (spec/60_exceptions.md). -/

namespace Sys2Proof.Machine

/-! What a command reports (R261 to R265). -/

/-- Settles O22: a command word answers a next state, its command consumes no pulse, and no instruction writes what is not
the block's. -/
theorem everyCommandWordCompletes : Obligations.EveryCommandWordCompletes := by
  intro w s
  obtain ⟨t, h⟩ := exec_next (decode w) s
  obtain ⟨hlast, hfsa, hmbx⟩ := command_quiet (decode_isCommand w) h
  obtain ⟨hparams, hshapes, hdata, hreader, hpending⟩ := exec_keeps_surroundings h
  exact ⟨t, h, hlast, hshapes, hfsa, hmbx, hparams, hdata, hreader, hpending⟩

/-- A command reports a success, or it records its code and does nothing else. -/
theorem command_succeeds_or_only_reports {i : Instr} (hi : i.isCommand = true) {s t : State} (h : exec i s = .next t) :
    t.result.isError = false ∨ t = s.setResult t.result := by
  cases i with
  | setClock psc period =>
    obtain ⟨-, rfl⟩ | ⟨-, rfl⟩ := setClock_cases h
    · exact .inr rfl
    · exact .inl rfl
  | configRead idle nc =>
    obtain ⟨-, rfl⟩ | ⟨-, -, -, rfl⟩ | ⟨-, -, -, rfl⟩ | ⟨-, -, rfl⟩ := configRead_cases h
    · exact .inr rfl
    · exact .inr rfl
    · exact .inl rfl
    · exact .inl rfl
  | txPush type =>
    obtain ⟨-, rfl⟩ | ⟨-, rfl⟩ := txPush_cases h
    · exact .inr rfl
    · exact .inl rfl
  | txSend =>
    obtain ⟨-, rfl⟩ | ⟨-, -, rfl⟩ | ⟨-, -, -, rfl⟩ | ⟨-, -, -, rfl⟩ := txSend_cases h
    · exact .inr rfl
    · exact .inl rfl
    · exact .inr rfl
    · exact .inl rfl
  | nop => cases h; exact .inl rfl
  | configReadStop idle nc => cases h; exact .inl rfl
  | txClearStage => cases h; exact .inl rfl
  | reserved w => cases h; exact .inr rfl
  | tick => cases hi
  | edge v => cases hi

/-- Settles O23: the four codes are the errors, and a command that reports one only reports. -/
theorem failingCommandIsPrecise : Obligations.FailingCommandIsPrecise := by
  intro i s t hi h herr
  have herror : t.result.isError = true := by
    obtain e | e | e | e := herr <;> rw [e] <;> rfl
  exact (command_succeeds_or_only_reports hi h).resolve_left (by simp [herror])

/-- Settles O24: each outcome of each command reports one code, under the guard of that outcome. -/
theorem errorCodesHaveTheirCauses : Obligations.ErrorCodesHaveTheirCauses := by
  intro i s t hi h
  cases i with
  | setClock psc period =>
    rw [← clockBusy_iff]
    obtain ⟨hbusy, rfl⟩ | ⟨hfree, rfl⟩ := setClock_cases h
    · simp [hbusy]
    · simp [hfree]
  | configRead idle nc =>
    rw [← halfPending_iff]
    obtain ⟨hclk, rfl⟩ | ⟨hclk, hpend, hidle, rfl⟩ | ⟨hclk, -, hidle, rfl⟩ | ⟨hclk, hpend, rfl⟩ :=
      configRead_cases h
    · simp [hclk]
    · simp [hclk, hpend, hidle]
    · simp [hclk, hidle]
    · simp [hclk, hpend]
  | txPush type =>
    obtain ⟨hfull, rfl⟩ | ⟨hroom, rfl⟩ := txPush_cases h
    · simp [hfull]
    · simp [hroom]
  | txSend =>
    obtain ⟨hclk, rfl⟩ | ⟨hclk, hempty, rfl⟩ | ⟨hclk, hstage, hfull, rfl⟩ | ⟨hclk, -, hroom, rfl⟩ := txSend_cases h
    · simp [hclk]
    · simp [hclk, hempty]
    · simp [hclk, hstage, hfull]
    · simp [hclk, hroom]
  | nop => cases h; simp
  | configReadStop idle nc => cases h; simp
  | txClearStage => cases h; simp
  | reserved w => cases h; simp
  | tick => cases hi
  | edge v => cases hi

/-! An edge and an overflow at the same instant (R268 (b)). -/

section
variable {s : State} (hclk : s.clock.clkSet = true)
include hclk

/-- A TICK right after an edge cleared CAP_CNT only counts in its capture part: W is at least 8. -/
theorem exec_tick_of_cleared (hp : s.params.Valid) (hcount : s.cap.count = 0) :
    exec .tick s =
      .next ((s.setCap { s.cap with count := wrap s.params 1 }).setTx (tickTx s.params s.tx)) := by
  have hge := modulus_ge hp
  have hzero : s.cap.count.toNat = 0 := by rw [hcount]; rfl
  refine (execTick_eq hclk).trans ?_
  rw [tickCapture_of_no_wrap (by omega), hzero]

/-- A TICK that wraps CAP_CNT in a pending half emits the overflow pulse and waits for a start edge (R138). -/
theorem exec_tick_overflow (hwrap : s.cap.count.toNat + 1 = modulus s.params) (hpend : s.cap.phase.halfPending = true) :
    exec .tick s =
      .next ((emit
        { first := if s.cap.phase = .first then overflow s.params else s.cap.first
          second := overflow s.params
          type := s.cap.edgeType }
        (s.setCap { s.cap with count := 0, phase := .waitStart })).setTx (tickTx s.params s.tx)) := by
  refine (execTick_eq hclk).trans ?_
  rw [tickCapture_at_wrap hwrap, captureOverflow_of_pending (by exact hpend)]
  rfl

end

/-- A count that the next TICK wraps is OVERFLOW. -/
theorem eq_overflow_of_wraps {p : Params} (hp : p.Valid) {c : Half} (h : c.toNat + 1 = modulus p) : c = overflow p := by
  apply BitVec.eq_of_toNat_eq
  rw [overflow_toNat hp]
  omega

/-- The edge that returns to the idle level is no start edge (R134). -/
theorem exec_edge_return {v : Level} {s : State} (hph : s.cap.phase = .waitStart) (hpin : v ≠ s.cap.pinIn)
    (hv : v = s.cap.idle) : exec (.edge v) s = .next (s.setCap { s.cap with pinIn := v }) := by
  rw [exec_edge_change hpin, captureEdge_to_idle (by exact hph) (by exact hv)]

/-- Settles O34: a TICK after the edge counts from 0; an edge after the TICK meets WaitStart, where it starts a pulse when it
leaves the idle level and is ignored when it returns to it. -/
theorem edgeAndOverflowInEitherOrder : Obligations.EdgeAndOverflowInEitherOrder := by
  constructor
  · intro s a b c d hp hclk hph hpin hwrap ha hb hc hd
    have hleave : (!s.cap.idle) ≠ s.cap.idle := by simp
    have hchange : (!s.cap.idle) ≠ s.cap.pinIn := by simp [hpin]
    have hcount : s.cap.count = overflow s.params := eq_overflow_of_wraps hp hwrap
    cases ha.symm.trans (exec_edge_second hph hchange)
    cases hb.symm.trans (exec_tick_of_cleared hclk hp rfl)
    cases hc.symm.trans (exec_tick_overflow hclk hwrap (by rw [hph]; rfl))
    cases hd.symm.trans (exec_edge_start rfl hchange hleave)
    simp [hph, hcount, overflow_toNat hp, modulus]
  · intro s a b c d hp hclk hph hpin hwrap ha hb hc hd
    have hcount : s.cap.count = overflow s.params := eq_overflow_of_wraps hp hwrap
    have hback : s.cap.idle ≠ s.cap.pinIn := by simp [hpin]
    cases ha.symm.trans (exec_edge_first hph hback)
    cases hb.symm.trans (exec_tick_of_cleared hclk hp rfl)
    cases hc.symm.trans (exec_tick_overflow hclk hwrap (by rw [hph]; rfl))
    cases hd.symm.trans (exec_edge_return rfl hback rfl)
    simp [hph, hcount, overflow_toNat hp, modulus]

end Sys2Proof.Machine
end

section
/-! SUPPORT and proofs: under a fair TICK a train to which nothing is appended completes (spec/60_exceptions.md R279). The
ticks that the train still takes go down with every TICK and up with none of the other steps. -/

namespace Sys2Proof.Machine

/-- The ticks that the train still takes. -/
def State.ticksLeft (s : State) : Nat := (remaining s.params s.tx).length

theorem ticksLeft_of_not_busy {s : State} (h : s.tx.busy = false) : s.ticksLeft = 0 := by
  simp [State.ticksLeft, remaining, h]

theorem not_busy_of_ticksLeft {s : State} (hinv : s.Inv) (h : s.ticksLeft = 0) : s.tx.busy = false :=
  not_busy_of_remaining_nil hinv.tx (List.length_eq_zero_iff.1 h)

/-- A TICK takes one of the ticks that are left. -/
theorem tick_ticksLeft {s t : State} (hinv : s.Inv) (hclk : s.clock.clkSet = true) (h : exec .tick s = .next t) :
    t.ticksLeft = s.ticksLeft - 1 := by
  cases h.symm.trans (execTick_eq hclk)
  simp [State.ticksLeft, remaining_tickTx hinv.paramsValid hinv.tx]

/-- Only a TICK and an accepted TX_SEND change how many ticks are left. -/
theorem exec_ticksLeft {i : Instr} {s t : State} (htick : i ≠ .tick) (h : exec i s = .next t) :
    t.ticksLeft = s.ticksLeft ∨ s.tx.queue.length < t.tx.queue.length := by
  cases i with
  | setClock psc period =>
    left
    obtain ⟨-, rfl⟩ | ⟨hbusy, rfl⟩ := setClock_cases h
    · rfl
    · have hidle : s.tx.busy = false := (Bool.or_eq_false_iff.1 hbusy).2
      rw [ticksLeft_of_not_busy hidle, ticksLeft_of_not_busy (by exact hidle)]
  | txSend =>
    obtain ⟨-, rfl⟩ | ⟨-, -, rfl⟩ | ⟨-, -, -, rfl⟩ | ⟨-, hstage, -, rfl⟩ := txSend_cases h
    · exact .inl rfl
    · exact .inl rfl
    · exact .inl rfl
    · right
      simp [sendStage_queue, List.length_pos_iff, hstage]
  | configRead idle nc =>
    left; obtain ⟨-, rfl⟩ | ⟨-, -, -, rfl⟩ | ⟨-, -, -, rfl⟩ | ⟨-, -, rfl⟩ := configRead_cases h <;> rfl
  | txPush type => left; obtain ⟨-, rfl⟩ | ⟨-, rfl⟩ := txPush_cases h <;> rfl
  | edge v =>
    left
    obtain ⟨-, rfl⟩ | ⟨-, -, rfl⟩ | ⟨-, -, -, rfl⟩ | ⟨-, -, -, rfl⟩ | ⟨-, -, rfl⟩ | ⟨-, -, rfl⟩ := edge_cases h <;> rfl
  | nop => cases h; exact .inl rfl
  | configReadStop idle nc => cases h; exact .inl rfl
  | txClearStage => cases h; exact .inl rfl
  | reserved w => cases h; exact .inl rfl
  | tick => exact absurd rfl htick

/-- A host access that runs no command takes no tick: TXCFG is written only while the queue is empty. -/
theorem HostEffect.ticksLeft {s t : State} (h : HostEffect s t) : t.ticksLeft = s.ticksLeft := by
  cases h with
  | nothing => rfl
  | read r => obtain e | e := readReg_eq r s <;> rw [e] <;> rfl
  | write r v =>
    obtain e | ⟨_, e⟩ | e | e := writeReg_eq r v s <;> rw [e]
    · rfl
    · cases hbusy : s.tx.busy with
      | true => simp [State.ticksLeft, writeTxcfg, hbusy]
      | false => rw [ticksLeft_of_not_busy hbusy, ticksLeft_of_not_busy (by simpa using hbusy)]
    · rfl
  | readerOpen c => obtain e | ⟨-, e⟩ := readerOpen_eq c s <;> rw [e]; rfl
  | readerPoll => obtain e | ⟨c, -, ⟨-, e⟩ | ⟨cmd, -, e⟩⟩ := readerPoll_eq s <;> rw [e] <;> rfl

/-- A stimulus that does not make the queue longer does not add to the ticks that are left. -/
theorem perform_ticksLeft_le {a : Stimulus} {s t : State} (hinv : s.Inv) (h : perform a s = .next t)
    (hgrow : t.tx.queue.length ≤ s.tx.queue.length) : t.ticksLeft ≤ s.ticksLeft := by
  have hkept {i : Instr} (htick : i ≠ .tick) (he : exec i s = .next t) : t.ticksLeft ≤ s.ticksLeft :=
    ((exec_ticksLeft htick he).resolve_right (by omega)).le
  obtain ⟨_, _, v, -, -, he⟩ | ⟨-, he⟩ | ⟨v, -, he⟩ | he := perform_cases h
  · refine hkept (fun e => ?_) he
    exact absurd (decode_isCommand v) (by simp [e, Instr.isCommand])
  · obtain ⟨-, rfl⟩ | ⟨hclk, -⟩ := tick_cases he
    · exact le_rfl
    · rw [tick_ticksLeft hinv hclk he]
      exact Nat.sub_le _ _
  · exact hkept (by simp) he
  · exact he.ticksLeft.le

/-- No stimulus clears CLK_SET. -/
theorem perform_keeps_clkSet {a : Stimulus} {s t : State} (h : perform a s = .next t) (hclk : s.clock.clkSet = true) :
    t.clock.clkSet = true := by
  have hexec {i : Instr} (he : exec i s = .next t) : t.clock.clkSet = true := by
    obtain e | ⟨psc, period, -, -, e⟩ := exec_clock he
    · rw [e, hclk]
    · rw [e]
  obtain ⟨_, _, _, -, -, he⟩ | ⟨-, he⟩ | ⟨_, -, he⟩ | he := perform_cases h
  · exact hexec he
  · exact hexec he
  · exact hexec he
  · obtain ⟨-, -, e, -⟩ := he.frame
    rw [e, hclk]

section
variable {e : Execution}

theorem Execution.clkSet_stays {m n : Nat} (hmn : m ≤ n) (hclk : (e.states m).clock.clkSet = true) :
    (e.states n).clock.clkSet = true :=
  Nat.le_induction hclk (fun n _ ih => perform_keeps_clkSet (e.follows n) ih) n hmn

variable (hinv : (e.states 0).Inv)
include hinv

theorem Execution.inv (n : Nat) : (e.states n).Inv := by
  induction n with
  | zero => exact hinv
  | succ n ih => exact perform_inv ih (e.follows n)

variable (hgrow : ∀ n, (e.states (n + 1)).tx.queue.length ≤ (e.states n).tx.queue.length)
include hgrow

theorem Execution.ticksLeft_antitone : Antitone fun n => (e.states n).ticksLeft :=
  antitone_nat_of_succ_le fun n => perform_ticksLeft_le (e.inv hinv n) (e.follows n) (hgrow n)

/-- While ticks are left the clock is set, so a fair TICK comes and takes one of them. -/
theorem Execution.ticksLeft_decreases (hfair : e.FairTick) {m : Nat} (h : (e.states m).ticksLeft ≠ 0) :
    ∃ n, m ≤ n ∧ (e.states n).ticksLeft < (e.states m).ticksLeft := by
  have hbusy : (e.states m).tx.busy = true := by
    by_contra hb
    exact h (ticksLeft_of_not_busy ((Bool.not_eq_true _).mp hb))
  have hclk : ∀ n, m ≤ n → (e.states n).clock.clkSet = true := fun n hmn =>
    Execution.clkSet_stays hmn ((e.inv hinv m).busyClk hbusy)
  obtain ⟨n, hmn, hsched⟩ := hfair m hclk
  have htick : exec .tick (e.states n) = .next (e.states (n + 1)) := by
    have hfollows := e.follows n
    rwa [hsched] at hfollows
  have htaken := tick_ticksLeft (e.inv hinv n) (hclk n hmn) htick
  have hle : (e.states n).ticksLeft ≤ (e.states m).ticksLeft := e.ticksLeft_antitone hinv hgrow hmn
  exact ⟨n + 1, by omega, by omega⟩

end

/-- Settles O44, by strong induction on the ticks that are left: none left is the end of the train. -/
theorem trainCompletesUnderFairTick : Obligations.TrainCompletesUnderFairTick := by
  intro e hinv hfair hgrow m
  induction hk : (e.states m).ticksLeft using Nat.strong_induction_on generalizing m with
  | h k ih =>
    by_cases hzero : (e.states m).ticksLeft = 0
    · have hquiet := not_busy_of_ticksLeft (e.inv hinv m) hzero
      exact ⟨m, le_rfl, hquiet, ((e.inv hinv m).tx.quietIdle hquiet).2⟩
    · obtain ⟨m', hm', hless⟩ := e.ticksLeft_decreases hinv hgrow hfair hzero
      obtain ⟨n, hn, hend⟩ := ih _ (hk ▸ hless) m' rfl
      exact ⟨n, hm'.trans hn, hend⟩

end Sys2Proof.Machine
end

section
/-! SUPPORT and proofs: reset (spec/70_reset_and_hazards.md R290). -/

namespace Sys2Proof.Machine

theorem eq_zeroPulse_of_mem_resetShapes {p : Params} {x : Pulse}
    (hx : x ∈ [(State.resetWith p).shapes.lead, (State.resetWith p).shapes.rep, (State.resetWith p).shapes.one,
      (State.resetWith p).shapes.zero]) : x = zeroPulse :=
  List.eq_of_mem_replicate (n := 4) hx

/-- Settles O1: each row of the table is a field that `State.resetWith` sets; only the row of the four shapes ranges over
more than one field, and each of them is the pulse of zeros. -/
theorem resetLeavesTableValues : Obligations.ResetLeavesTableValues := by
  intro p s
  have hshapes : ∀ x ∈ [s.shapes.lead, s.shapes.rep, s.shapes.one, s.shapes.zero],
      x.first = 0 ∧ x.second = 0 ∧ x.type = .rising := by
    intro x hx
    obtain rfl := eq_zeroPulse_of_mem_resetShapes hx
    exact ⟨rfl, rfl, rfl⟩
  and_intros
  any_goals rfl
  exact hshapes

end Sys2Proof.Machine
end
